-- ==== Sys2Proof/Word.lean ====
section
/-! DEFINITION. Bytes, the 32-bit word and byte sequences (R19). -/

namespace Sys2Proof

/-- A byte: an integer 0 to 255 (R19). -/
abbrev Byte := BitVec 8

/-- The 32-bit registers CMD, STATUS, ERRCODE, CUR are read and written as whole integers (R55). -/
abbrev Word := BitVec 32

/-- A byte sequence in index order (R19, R54). -/
abbrev Bytes := List Byte

/-- A register that holds exactly `n` bytes. -/
abbrev ByteReg (n : Nat) := { b : Bytes // b.length = n }

/-- A block is a byte sequence of length 16 (R8, R19). -/
abbrev Block := ByteReg 16

/-- `[0]*n` as the contents of an `n`-byte register. -/
def ByteReg.zero (n : Nat) : ByteReg n := ⟨List.replicate n 0, List.length_replicate⟩

end Sys2Proof
end

