-- ==== Sys2Proof/Syntax.lean ====
section
/-! DEFINITION. The 15 commands of R3 and R73 as one inductive, and the modes and directions of R74, R75. -/

namespace Sys2Proof

/-- The chaining modes, in the order in which R75 numbers them. -/
inductive Mode where
  | ecb | cbc | cfb | ofb | ctr
deriving DecidableEq, Repr

/-- The field DIR (R74): 0 for encrypt, 1 for decrypt. -/
inductive Dir where
  | enc | dec
deriving DecidableEq, Repr

/-- One constructor per row of spec/opcode_table.json. `autoiv` is bit 8 of a cipher word (R76), `n` the count in bits 31:16
of an RNG word (R77). -/
inductive Instr where
  | clear
  | keyld
  | ivld
  | ecbEnc (autoiv : Bool)
  | ecbDec (autoiv : Bool)
  | cbcEnc (autoiv : Bool)
  | cbcDec (autoiv : Bool)
  | cfbEnc (autoiv : Bool)
  | cfbDec (autoiv : Bool)
  | ofbEnc (autoiv : Bool)
  | ofbDec (autoiv : Bool)
  | ctrEnc (autoiv : Bool)
  | ctrDec (autoiv : Bool)
  | kdf
  | rng (n : Nat)
deriving DecidableEq, Repr

end Sys2Proof
end

