-- ==== Sys2Proof/WellFormed.lean ====
section
/-! DEFINITION. Which instruction terms a command word can express. -/

namespace Sys2Proof

/-- The count of RNG is a 16-bit unsigned immediate, 0 to 65,535 (R77). No other field has a value the encoding cannot hold. -/
def Instr.wellFormed : Instr → Bool
  | .clear => true
  | .keyld => true
  | .ivld => true
  | .ecbEnc _ => true
  | .ecbDec _ => true
  | .cbcEnc _ => true
  | .cbcDec _ => true
  | .cfbEnc _ => true
  | .cfbDec _ => true
  | .ofbEnc _ => true
  | .ofbDec _ => true
  | .ctrEnc _ => true
  | .ctrDec _ => true
  | .kdf => true
  | .rng n => decide (n < 65536)

/-- `wellFormed` as a proposition. -/
abbrev Instr.WellFormed (i : Instr) : Prop := i.wellFormed = true

end Sys2Proof
end

