-- ==== Sys2Proof/Decode.lean ====
section
/-! DEFINITION. The command word: its fields (R71), the total decoder (R78) and the encoder (R72, R73). -/

namespace Sys2Proof

/-- Why a word is not a command (R78): it raises E_CMD (R212) or E_MODE (R213). -/
inductive DecodeError where
  | illegal
  | unsupportedMode
deriving DecidableEq, Repr

/-- OP, bits 7:0 (R71). -/
def opField (w : Word) : Byte := w.extractLsb' 0 8

/-- AUTOIV, bit 8 (R71). -/
def autoivField (w : Word) : Bool := w.getLsbD 8

/-- RSV, bits 15:9 (R71). -/
def rsvField (w : Word) : BitVec 7 := w.extractLsb' 9 7

/-- N, bits 31:16 (R71). -/
def countField (w : Word) : BitVec 16 := w.extractLsb' 16 16

/-- MODE, OP[3:1], with the numbering of R75; 5, 6 and 7 are no mode. -/
def modeField (op : Byte) : Option Mode :=
  match (op.extractLsb' 1 3).toNat with
  | 0 => some .ecb
  | 1 => some .cbc
  | 2 => some .cfb
  | 3 => some .ofb
  | 4 => some .ctr
  | _ => none

/-- DIR, OP[0] (R74). -/
def dirField (op : Byte) : Dir := if op.getLsbD 0 then .dec else .enc

/-- The cipher command of a mode and a direction (R3: five variants times two operations). -/
def Instr.ofCipher : Mode → Dir → Bool → Instr
  | .ecb, .enc, a => .ecbEnc a
  | .ecb, .dec, a => .ecbDec a
  | .cbc, .enc, a => .cbcEnc a
  | .cbc, .dec, a => .cbcDec a
  | .cfb, .enc, a => .cfbEnc a
  | .cfb, .dec, a => .cfbDec a
  | .ofb, .enc, a => .ofbEnc a
  | .ofb, .dec, a => .ofbDec a
  | .ctr, .enc, a => .ctrEnc a
  | .ctr, .dec, a => .ctrDec a

/-- A word of format F0 is legal only with AUTOIV and N zero (R72). -/
def decodeF0 (w : Word) (i : Instr) : Except DecodeError Instr :=
  if autoivField w = true ∨ countField w ≠ 0 then .error .illegal else .ok i

/-- A word of format FN is legal only with AUTOIV zero (R72). -/
def decodeFN (w : Word) : Except DecodeError Instr :=
  if autoivField w = true then .error .illegal else .ok (.rng (countField w).toNat)

/-- A word of format FC is legal only with N zero; then MODE decides (R78). -/
def decodeFC (w : Word) : Except DecodeError Instr :=
  if countField w ≠ 0 then .error .illegal
  else
    match modeField (opField w) with
    | none => .error .unsupportedMode
    | some m => .ok (Instr.ofCipher m (dirField (opField w)) (autoivField w))

/-- The decoding procedure of R78, line by line; it answers on every one of the 2^32 words. -/
def decode (w : Word) : Except DecodeError Instr :=
  if rsvField w ≠ 0 then .error .illegal
  else if opField w = 0x01#8 then decodeF0 w .clear
  else if opField w = 0x02#8 then decodeF0 w .keyld
  else if opField w = 0x03#8 then decodeF0 w .ivld
  else if opField w = 0x20#8 then decodeF0 w .kdf
  else if opField w = 0x30#8 then decodeFN w
  else if (opField w).extractLsb' 4 4 = 1#4 then decodeFC w
  else .error .illegal

/-- A word put together from its fields (R71). -/
def assemble (n : BitVec 16) (rsv : BitVec 7) (autoiv : Bool) (op : Byte) : Word :=
  n ++ rsv ++ BitVec.ofBool autoiv ++ op

/-- The opcode map of R73. -/
def Instr.opcode : Instr → Byte
  | .clear => 0x01
  | .keyld => 0x02
  | .ivld => 0x03
  | .ecbEnc _ => 0x10
  | .ecbDec _ => 0x11
  | .cbcEnc _ => 0x12
  | .cbcDec _ => 0x13
  | .cfbEnc _ => 0x14
  | .cfbDec _ => 0x15
  | .ofbEnc _ => 0x16
  | .ofbDec _ => 0x17
  | .ctrEnc _ => 0x18
  | .ctrDec _ => 0x19
  | .kdf => 0x20
  | .rng _ => 0x30

/-- The AUTOIV bit of a command's word (R72). -/
def Instr.autoivBit : Instr → Bool
  | .clear => false
  | .keyld => false
  | .ivld => false
  | .ecbEnc a => a
  | .ecbDec a => a
  | .cbcEnc a => a
  | .cbcDec a => a
  | .cfbEnc a => a
  | .cfbDec a => a
  | .ofbEnc a => a
  | .ofbDec a => a
  | .ctrEnc a => a
  | .ctrDec a => a
  | .kdf => false
  | .rng _ => false

/-- The N field of a command's word (R72). -/
def Instr.countBits : Instr → BitVec 16
  | .clear => 0
  | .keyld => 0
  | .ivld => 0
  | .ecbEnc _ => 0
  | .ecbDec _ => 0
  | .cbcEnc _ => 0
  | .cbcDec _ => 0
  | .cfbEnc _ => 0
  | .cfbDec _ => 0
  | .ofbEnc _ => 0
  | .ofbDec _ => 0
  | .ctrEnc _ => 0
  | .ctrDec _ => 0
  | .kdf => 0
  | .rng n => BitVec.ofNat 16 n

/-- The word of a command (R72, R73, R81). -/
def encode (i : Instr) : Word := assemble i.countBits 0 i.autoivBit i.opcode

/-- The instruction the decoder reads from the bits `w`, numbered as spec/opcode_table.json numbers them. A command is one
32-bit word (R70), so bits above `nbits` are 0 and a number that needs more than 32 bits is no command. -/
def decodeTableWord (nbits w : Nat) : Option Instr :=
  if w % 2 ^ nbits < 2 ^ 32 then
    match decode (BitVec.ofNat 32 (w % 2 ^ nbits)) with
    | .ok i => some i
    | .error _ => none
  else none

end Sys2Proof
end

