-- ==== Sys2Proof/Machine/Sha512.lean ====
section
/-! DEFINITION. SHA-512 as `49_appendix_sha512.md` gives it (R200 to R207), the function behind port H512. -/

namespace Sys2Proof.Sha512

/-- 64-bit words; `+` is addition mod 2^64 (R201). -/
abbrev W64 := BitVec 64

/-- ROTR of R201. -/
def rotr (x : W64) (n : Nat) : W64 := (x >>> n) ||| (x <<< (64 - n))

/-- Every function of R202 but Ch is the XOR of three words. -/
def xor3 (p q r : W64) : W64 := p ^^^ q ^^^ r

/-- Ch of R202: where a bit of `x` is 1 the bit of `y`, else that of `z`. -/
def ch (x y z : W64) : W64 := (x &&& y) ^^^ (~~~x &&& z)

/-- Maj of R202. -/
def maj (x y z : W64) : W64 := xor3 (x &&& y) (x &&& z) (y &&& z)

/-- BSIG0 of R202. -/
def bsig0 (x : W64) : W64 := xor3 (rotr x 28) (rotr x 34) (rotr x 39)

/-- BSIG1 of R202. -/
def bsig1 (x : W64) : W64 := xor3 (rotr x 14) (rotr x 18) (rotr x 41)

/-- SSIG0 of R202; SHR(x, n) is `x >>> n` (R201). -/
def ssig0 (x : W64) : W64 := xor3 (rotr x 1) (rotr x 8) (x >>> 7)

/-- SSIG1 of R202. -/
def ssig1 (x : W64) : W64 := xor3 (rotr x 19) (rotr x 61) (x >>> 6)

/-- The eight working words H[0..7], also a..h (R203, R207). -/
structure Chain where
  a : W64
  b : W64
  c : W64
  d : W64
  e : W64
  f : W64
  g : W64
  h : W64
deriving DecidableEq, Repr

/-- The initial hash value H0 (R203). -/
def h0 : Chain where
  a := 0x6a09e667f3bcc908
  b := 0xbb67ae8584caa73b
  c := 0x3c6ef372fe94f82b
  d := 0xa54ff53a5f1d36f1
  e := 0x510e527fade682d1
  f := 0x9b05688c2b3e6c1f
  g := 0x1f83d9abfb41bd6b
  h := 0x5be0cd19137e2179

/-- The table of R204 as it is printed: twenty lines, four constants in each, the first one leftmost. -/
def constantLines : List (BitVec 256) := [
  0x428a2f98d728ae22_7137449123ef65cd_b5c0fbcfec4d3b2f_e9b5dba58189dbbc,
  0x3956c25bf348b538_59f111f1b605d019_923f82a4af194f9b_ab1c5ed5da6d8118,
  0xd807aa98a3030242_12835b0145706fbe_243185be4ee4b28c_550c7dc3d5ffb4e2,
  0x72be5d74f27b896f_80deb1fe3b1696b1_9bdc06a725c71235_c19bf174cf692694,
  0xe49b69c19ef14ad2_efbe4786384f25e3_0fc19dc68b8cd5b5_240ca1cc77ac9c65,
  0x2de92c6f592b0275_4a7484aa6ea6e483_5cb0a9dcbd41fbd4_76f988da831153b5,
  0x983e5152ee66dfab_a831c66d2db43210_b00327c898fb213f_bf597fc7beef0ee4,
  0xc6e00bf33da88fc2_d5a79147930aa725_06ca6351e003826f_142929670a0e6e70,
  0x27b70a8546d22ffc_2e1b21385c26c926_4d2c6dfc5ac42aed_53380d139d95b3df,
  0x650a73548baf63de_766a0abb3c77b2a8_81c2c92e47edaee6_92722c851482353b,
  0xa2bfe8a14cf10364_a81a664bbc423001_c24b8b70d0f89791_c76c51a30654be30,
  0xd192e819d6ef5218_d69906245565a910_f40e35855771202a_106aa07032bbd1b8,
  0x19a4c116b8d2d0c8_1e376c085141ab53_2748774cdf8eeb99_34b0bcb5e19b48a8,
  0x391c0cb3c5c95a63_4ed8aa4ae3418acb_5b9cca4f7763e373_682e6ff3d6b2b8a3,
  0x748f82ee5defb2fc_78a5636f43172f60_84c87814a1f0ab72_8cc702081a6439ec,
  0x90befffa23631e28_a4506cebde82bde9_bef9a3f7b2c67915_c67178f2e372532b,
  0xca273eceea26619c_d186b8c721c0c207_eada7dd6cde0eb1e_f57d4f7fee6ed178,
  0x06f067aa72176fba_0a637dc5a2c898a6_113f9804bef90dae_1b710b35131c471b,
  0x28db77f523047d84_32caab7b40c72493_3c9ebe0a15c9bebc_431d67c49c100d4c,
  0x4cc5d4becb3e42b6_597f299cfc657e2a_5fcb6fab3ad6faec_6c44198c4a475817]

/-- The four constants of a line, in order. -/
def fourWords (line : BitVec 256) : List W64 :=
  [192, 128, 64, 0].map fun low => line.extractLsb' low 64

/-- The round constants K[0..79] (R204). -/
def roundConstants : List W64 := constantLines.flatMap fourWords

/-- BE64: the first byte is the most significant (R206). -/
def be64 (b : Bytes) : W64 := b.foldl (fun v x => (v <<< 8) ||| x.setWidth 64) 0

/-- toBE64 (R206). -/
def toBE64 (w : W64) : Bytes :=
  [w.extractLsb' 56 8, w.extractLsb' 48 8, w.extractLsb' 40 8, w.extractLsb' 32 8,
   w.extractLsb' 24 8, w.extractLsb' 16 8, w.extractLsb' 8 8, w.extractLsb' 0 8]

/-- The number of zero bytes of R205: the least `z` with `(L + 1 + z) mod 128 = 112`. -/
def zeroCount (len : Nat) : Nat := (239 - len % 128) % 128

/-- The 16-byte big-endian encoding of the bit length (R205). -/
def lengthBytes (len : Nat) : Bytes :=
  (List.range 16).map fun j => BitVec.ofNat 8 (8 * len / 256 ^ (15 - j))

/-- Padding of a message (R205). -/
def padded (m : Bytes) : Bytes :=
  m ++ 0x80#8 :: List.replicate (zeroCount m.length) 0 ++ lengthBytes m.length

/-- W[0..15] of a 128-byte block (R207). -/
def firstWords (block : Bytes) : List W64 :=
  (List.range 16).map fun t => be64 ((block.drop (8 * t)).take 8)

/-- `n` further words of the message schedule, after those in `ws` (R207). -/
def extendSchedule : Nat → List W64 → List W64
  | 0, ws => ws
  | n + 1, ws =>
    let t := ws.length
    extendSchedule n
      (ws ++ [ssig1 (ws.getD (t - 2) 0) + ws.getD (t - 7) 0 + ssig0 (ws.getD (t - 15) 0) + ws.getD (t - 16) 0])

/-- The message schedule W[0..79] of a block (R207). -/
def schedule (block : Bytes) : List W64 := extendSchedule 64 (firstWords block)

/-- One round of R207, with `K[t]` and `W[t]`. -/
def round (s : Chain) (kw : W64 × W64) : Chain :=
  let t1 := s.h + bsig1 s.e + ch s.e s.f s.g + kw.1 + kw.2
  let t2 := bsig0 s.a + maj s.a s.b s.c
  { a := t1 + t2, b := s.a, c := s.b, d := s.c, e := s.d + t1, f := s.e, g := s.f, h := s.g }

/-- Word by word addition at the end of R207. -/
def Chain.add (x y : Chain) : Chain :=
  { a := x.a + y.a, b := x.b + y.b, c := x.c + y.c, d := x.d + y.d,
    e := x.e + y.e, f := x.f + y.f, g := x.g + y.g, h := x.h + y.h }

/-- The compression of one 128-byte block (R207). -/
def compress (s : Chain) (block : Bytes) : Chain :=
  s.add ((roundConstants.zip (schedule block)).foldl round s)

/-- The first `n` blocks of a padded message, in order (R205, R207). -/
def compressBlocks : Nat → Chain → Bytes → Chain
  | 0, s, _ => s
  | n + 1, s, m => compressBlocks n (compress s (m.take 128)) (m.drop 128)

/-- The digest bytes of H[0] to H[7] (R206). -/
def Chain.bytes (s : Chain) : ByteReg 64 :=
  ⟨toBE64 s.a ++ toBE64 s.b ++ toBE64 s.c ++ toBE64 s.d ++ toBE64 s.e ++ toBE64 s.f ++ toBE64 s.g ++ toBE64 s.h,
   by simp [toBE64]⟩

/-- SHA-512 (R200). -/
def hash (m : Bytes) : ByteReg 64 :=
  (compressBlocks ((padded m).length / 128) h0 (padded m)).bytes

end Sys2Proof.Sha512
end

