-- ==== Sys2Proof/Config.lean ====
section
/-! DEFINITION. What one CORE is connected to: the ports of R12 to R16, the open parameters of R11, and the free values.
Every constant the spec leaves open has no body, so no proof can use a value of it. -/

namespace Sys2Proof

/-- The ports and parameters of R11 to R16 ("not state"), and the free values of R40. The operations of the machine take
a platform as an argument; the machine itself runs on `Config.platform`. -/
structure Platform where
  /-- `E(key, block)`: a block, or none for FAIL (R12). The spec gives it for keys of 16, 24 or 32 bytes only; that it takes every
  byte sequence is the model's choice (DESIGN CHOICE, log 22). -/
  enc : Bytes → Block → Option Block
  /-- `D(key, block)`: a block, or none for FAIL (R12). As for `enc`, that it takes every byte sequence as a key is the model's
  choice (DESIGN CHOICE, log 22). -/
  dec : Bytes → Block → Option Block
  /-- `H512(m)`: 64 bytes, or none for FAIL (R14). -/
  h512 : Bytes → Option (ByteReg 64)
  /-- LE, the digest length of the entropy hash in bytes (R10, R11). -/
  le : Nat
  le_ge : 20 ≤ le
  /-- `EDIGEST(cnt, mem, ts)`: LE bytes, or none for FAIL (R15). -/
  edigest : Nat → Nat → Nat → Option (ByteReg le)
  /-- FALLBACK_MEM (R11, R16). -/
  fallbackMem : Nat
  /-- FALLBACK_TS (R11, R16). -/
  fallbackTs : Nat
  /-- LEN_MAX, the largest length of IBUF (R11). -/
  lenMax : Nat
  lenMax_ge : 1016 ≤ lenMax
  /-- The answer of `ENV.mem` at the given draw, none for UNAVAIL (R16). -/
  envMem : Nat → Option Nat
  /-- The answer of `ENV.ts` at the given draw, none for UNAVAIL (R16). -/
  envTs : Nat → Option Nat
  /-- What a read of ILEN, OLEN or BLKIDX returns while BUSY, at the given draw (R40). -/
  busyCount : Nat → Nat
  /-- What a read of KRND, 17 bits wide, returns while BUSY (R40). -/
  busyKrnd : Nat → BitVec 17
  /-- What a read of IV or FB, 128 bits wide, returns while BUSY (R40). -/
  busyBlock : Nat → BitVec 128
  /-- What a read-out of OBUF returns while BUSY (R40, R59). -/
  busyBytes : Nat → Bytes

/-- BLK_INV (R13): on keys of legal length, `D` undoes `E` and `E` undoes `D`, wherever they do not answer FAIL. -/
def Platform.BlkInv (P : Platform) : Prop :=
  ∀ k : Bytes, ∀ x y : Block, k.length ∈ [16, 24, 32] →
    (P.enc k x = some y → P.dec k y = some x) ∧ (P.dec k x = some y → P.enc k y = some x)

/-- BLK_NOFAIL (R13): neither `E` nor `D` ever answers FAIL, on the keys for which R12 gives them, those of legal length (R219);
it asks nothing on other keys (log 22). -/
def Platform.BlkNoFail (P : Platform) : Prop :=
  ∀ k : Bytes, ∀ x : Block, k.length ∈ [16, 24, 32] → (P.enc k x).isSome ∧ (P.dec k x).isSome

/-- The block primitive's encrypt direction, left open (R12, D2; log 1). -/
opaque Config.enc : Bytes → Block → Option Block

/-- The block primitive's decrypt direction, left open (R12, D2; log 1). -/
opaque Config.dec : Bytes → Block → Option Block

/-- By how much LE exceeds its least value 20 (R11, D4; log 1). -/
opaque Config.leExtra : Nat

/-- LE, open but for `LE >= 20` (R11, D4). -/
def Config.le : Nat := 20 + Config.leExtra

/-- The entropy generator's mixing and hash, left open (R15, D4; log 1). -/
opaque Config.edigest : Nat → Nat → Nat → Option (ByteReg Config.le)

/-- FALLBACK_MEM, left open (D5; log 1). -/
opaque Config.fallbackMem : Nat

/-- FALLBACK_TS, left open (D5; log 1). -/
opaque Config.fallbackTs : Nat

/-- By how much LEN_MAX exceeds its least value 1016 (R11, D7; log 1). -/
opaque Config.lenMaxExtra : Nat

/-- The draws of `ENV.mem`, by draw number (R16; log 3). -/
opaque Config.envMem : Nat → Option Nat

/-- The draws of `ENV.ts`, by draw number (R16; log 3). -/
opaque Config.envTs : Nat → Option Nat

/-- The draws of a count read while BUSY (R40; log 9). -/
opaque Config.busyCount : Nat → Nat

/-- The draws of KRND read while BUSY (R40; log 9). -/
opaque Config.busyKrnd : Nat → BitVec 17

/-- The draws of IV or FB read while BUSY (R40; log 9). -/
opaque Config.busyBlock : Nat → BitVec 128

/-- The draws of OBUF read while BUSY (R40; log 9). -/
opaque Config.busyBytes : Nat → Bytes

/-- The platform the machine runs on. H512 is SHA-512, which never answers FAIL (R200; log 4). -/
def Config.platform : Platform where
  enc := Config.enc
  dec := Config.dec
  h512 := fun m => some (Sha512.hash m)
  le := Config.le
  le_ge := Nat.le_add_right 20 Config.leExtra
  edigest := Config.edigest
  fallbackMem := Config.fallbackMem
  fallbackTs := Config.fallbackTs
  lenMax := 1016 + Config.lenMaxExtra
  lenMax_ge := Nat.le_add_right 1016 Config.lenMaxExtra
  envMem := Config.envMem
  envTs := Config.envTs
  busyCount := Config.busyCount
  busyKrnd := Config.busyKrnd
  busyBlock := Config.busyBlock
  busyBytes := Config.busyBytes

end Sys2Proof
end

