-- ==== Sys2Proof/Machine/State.lean ====
section
/-! DEFINITION. The state of one CORE (R20), its reset (R39), and the reasons a step can stop. -/

namespace Sys2Proof.Machine

/-- KLEN holds one of 0, 16, 24, 32 (R21). -/
inductive KeyLen where
  | none | b16 | b24 | b32
deriving DecidableEq, Repr

/-- The values of PHASE (R26). -/
inductive Phase where
  | idle | check | ivgen | run | final | kinit | krun | kout | gen
deriving DecidableEq, Repr

/-- The error codes of R211, 0 (E_NONE) apart. -/
inductive ErrCode where
  | cmd | mode | keylen | ivlen | ivmiss | align | pad | blk | hash
deriving DecidableEq, Repr

/-- The entropy generator's state (R36), and the model's own draw counter `envReads` (log 3). -/
structure Entropy where
  ecnt : BitVec 64
  emem : Nat
  ets : Nat
  esv : Bool
  ebits : Nat
  edig : Bytes
  edpos : Nat
  /-- The model's own: how many environment readings have been drawn (R16; log 3). -/
  envReads : Nat
deriving DecidableEq, Repr

/-- One pending move (log 5): a host move of R56 to R60, a register write (R30), or the sequencer's turn (R17). -/
inductive Move where
  /-- H.LOAD(b) (R56). -/
  | load (b : Bytes)
  /-- H.CMD(w), an accepted command then running to completion at once (R57, R64, R81; log 6). -/
  | cmd (w : Word)
  /-- H.CMD(w), an accepted command then running phase by phase, one sequencer step at a time (R57, R175; log 6). -/
  | cmdPhased (w : Word)
  /-- A write of `w` to register number `n` (R30): H.CMD(w) for 0, ignored for every other number. -/
  | write (n : Nat) (w : Word)
  /-- H.READ(n) (R58). -/
  | read (n : Nat)
  /-- H.READOUT (R59). -/
  | readout
  /-- H.RESET (R60). -/
  | reset
  /-- The sequencer takes one step (R175). -/
  | tick
deriving DecidableEq, Repr

/-- What a host read returned (R58, R59; log 8). -/
inductive Reply where
  /-- A 32-bit register, or a register number not listed. -/
  | word (w : Word)
  /-- A count: ILEN, OLEN, BLKIDX, KRND. -/
  | count (n : Nat)
  /-- A 128-bit register or the whole of OBUF, in index order. -/
  | bytes (b : Bytes)
deriving DecidableEq, Repr

/-- The state of R20. STATUS, KEYV, KLC, ILEN and OLEN are not separate storage (R32, R34); the last three fields are the
model's own. -/
structure State where
  /-- KEY, 32 bytes (R21). -/
  key : ByteReg 32
  /-- KLEN (R21). -/
  klen : KeyLen
  /-- IV, 16 bytes (R22). -/
  iv : Block
  /-- IVV, 1 bit (R22). -/
  ivv : Bool
  /-- FB, the feedback register (R23). -/
  fb : Block
  /-- KST, the state register of the KDF engine (R24). -/
  kst : ByteReg 64
  /-- PHASE (R26). -/
  phase : Phase
  /-- CUR, the latched command word (R29). -/
  cur : Word
  /-- BLKIDX, the block counter (R27). -/
  blkidx : Nat
  /-- KRND, the KDF round counter (R28). -/
  krnd : Nat
  /-- STATUS.BUSY (R32). -/
  busy : Bool
  /-- STATUS.DONE (R32). -/
  done : Bool
  /-- STATUS.ERR (R32). -/
  err : Bool
  /-- STATUS.OVR (R32). -/
  ovr : Bool
  /-- ERRCODE (R33). -/
  errcode : Word
  /-- IBUF, indexed by byte offset from 0 (R51). -/
  ibuf : Bytes
  /-- OBUF, indexed by byte offset from 0 (R52). -/
  obuf : Bytes
  /-- ECNT, EMEM, ETS, ESV, EBITS, EDIG, EDPOS (R36). -/
  ent : Entropy
  /-- The model's own: the draw number of the next read made while BUSY (log 9). -/
  hostReads : Nat
  /-- The model's own: the pending moves, the next one first (log 5). -/
  moves : List Move
  /-- The model's own: what the last host read returned (log 8). -/
  reply : Option Reply
deriving DecidableEq, Repr

/-- Why the machine stops. The spec has no stop: a failing command completes with an error code (R210, R221). -/
inductive Fault where
  /-- Raised by `sequencerTurn` when PHASE names a phase that the latched command CUR never enters, for which R175 has no
  transition. No reachable state is such. Safe: the model stops where the spec gives no step (log 11). -/
  | noTransition
deriving DecidableEq, Repr

/-- Why a step has no meaning. -/
inductive Refusal where
  /-- Raised by an arm of `exec` whose command has no meaning yet; no arm does. Safe. -/
  | notModelled (mnemonic : String)
  /-- Raised by `loadMove`: H.LOAD while BUSY is not a move of the model (R56, R240, I25). Unsafe: the host is assumed never
  to make it (log 10). -/
  | loadWhileBusy
  /-- Raised by `loadMove`: H.LOAD of more than LEN_MAX bytes is not a move of the model (R56, I25). Unsafe: the host is
  assumed never to make it (log 10). -/
  | loadTooLong
deriving DecidableEq, Repr

/-- The entropy state after reset (R39) on a platform with digest length `le`. -/
def Entropy.reset (le : Nat) : Entropy where
  ecnt := 0
  emem := 0
  ets := 0
  esv := false
  ebits := 0
  edig := List.replicate le 0
  edpos := le
  envReads := 0

/-- The reset table of R39, on a platform with digest length `le`; nothing is pending and nothing has been read (log 15). -/
def State.resetWith (le : Nat) : State where
  key := ByteReg.zero 32
  klen := .none
  iv := ByteReg.zero 16
  ivv := false
  fb := ByteReg.zero 16
  kst := ByteReg.zero 64
  phase := .idle
  cur := 0
  blkidx := 0
  krnd := 0
  busy := false
  done := false
  err := false
  ovr := false
  errcode := 0
  ibuf := []
  obuf := []
  ent := Entropy.reset le
  hostReads := 0
  moves := []
  reply := none

/-- The machine right after reset (R39, R235). -/
def State.reset : State := State.resetWith Config.le

end Sys2Proof.Machine
end

