-- ==== Sys2Proof/Machine/Operands.lean ====
section
/-! DEFINITION. The operators of R19 on byte sequences, the key in force, the input units of the cipher commands (R150, R186),
PAD and UNPAD (R126, R127), and the mode properties of R75. -/

namespace Sys2Proof.Machine

/-- `padded(MODE)` of R75. -/
def padded : Mode → Bool
  | .ecb => true
  | .cbc => true
  | .cfb => false
  | .ofb => false
  | .ctr => false

/-- `needsIV(MODE)` of R75. -/
def needsIV : Mode → Bool
  | .ecb => false
  | .cbc => true
  | .cfb => true
  | .ofb => true
  | .ctr => true

/-- The mode, direction and AUTOIV bit of a cipher command (R74, R76). -/
def cipherFields : Instr → Option (Mode × Dir × Bool)
  | .clear => none
  | .keyld => none
  | .ivld => none
  | .ecbEnc a => some (.ecb, .enc, a)
  | .ecbDec a => some (.ecb, .dec, a)
  | .cbcEnc a => some (.cbc, .enc, a)
  | .cbcDec a => some (.cbc, .dec, a)
  | .cfbEnc a => some (.cfb, .enc, a)
  | .cfbDec a => some (.cfb, .dec, a)
  | .ofbEnc a => some (.ofb, .enc, a)
  | .ofbDec a => some (.ofb, .dec, a)
  | .ctrEnc a => some (.ctr, .enc, a)
  | .ctrDec a => some (.ctr, .dec, a)
  | .kdf => none
  | .rng _ => none

/-- `a XOR b` on byte sequences, byte by byte (R19). -/
def xorBytes (a b : Bytes) : Bytes := List.zipWith (· ^^^ ·) a b

/-- `a XOR b` on blocks. -/
def xorBlock (a b : Block) : Block := ⟨xorBytes a.val b.val, by simp [xorBytes, a.property, b.property]⟩

/-- `rotl8(x, n)` of R19, on a byte, so that the mask 0xFF is the width. -/
def rotl8 (x : Byte) (n : Nat) : Byte := (x <<< n) ||| (x >>> (8 - n))

/-- `BE128(b)` of R19: byte 0 is the most significant (R55). -/
def be128 (b : Block) : Nat := b.val.foldl (fun v x => v * 256 + x.toNat) 0

/-- `toBE128(n)` of R19. -/
def toBE128 (n : Nat) : Block :=
  ⟨(List.range 16).map fun j => BitVec.ofNat 8 (n / 256 ^ (15 - j)), by simp⟩

/-- `MemRead(b, off, n)` of R19: the bytes `off` to `off + n - 1`. -/
def memRead (b : Bytes) (off n : Nat) : Bytes := (b.drop off).take n

/-- `b ‖ [0]*(n - |b|)` as the contents of an `n`-byte register (R180). Every use has at most `n` bytes (log 16). -/
def toReg (n : Nat) (b : Bytes) : ByteReg n :=
  ⟨(b ++ List.replicate n 0).take n, by simp⟩

/-- The number of bytes of a key length (R21). -/
def KeyLen.toNat : KeyLen → Nat
  | .none => 0
  | .b16 => 16
  | .b24 => 24
  | .b32 => 32

/-- The key length for a number of bytes, if it is 16, 24 or 32 (R180). -/
def keyLenOf (n : Nat) : Option KeyLen :=
  if n = 16 then some .b16 else if n = 24 then some .b24 else if n = 32 then some .b32 else none

/-- `KEY[0..KLEN)`, the key in force (R21). -/
def State.keyInForce (s : State) : Bytes := s.key.val.take s.klen.toNat

/-- PAD of R126. -/
def pad (m : Bytes) : Bytes :=
  m ++ List.replicate (16 - m.length % 16) (BitVec.ofNat 8 (16 - m.length % 16))

/-- UNPAD of R127; none is `fail`. -/
def unpad (m : Bytes) : Option Bytes :=
  match m.getLast? with
  | none => none
  | some p =>
    if p.toNat < 1 ∨ 16 < p.toNat then none
    else if (m.drop (m.length - p.toNat)).all (· == p) then some (m.take (m.length - p.toNat))
    else none

/-- NBLK of R186, for an input of `ilen` bytes. -/
def blockCount (m : Mode) (d : Dir) (ilen : Nat) : Nat :=
  if padded m then
    match d with
    | .enc => ilen / 16 + 1
    | .dec => ilen / 16
  else (ilen + 15) / 16

/-- The input unit `PAD(IBUF)[16i .. 16i+16)` of a padded encryption (R186). -/
def paddedBlock (ibuf : Bytes) (i : Nat) : Block := toReg 16 (memRead (pad ibuf) (16 * i) 16)

/-- The input unit `IBUF[16i .. 16i+16)` of a padded decryption (R186). -/
def cipherBlock (ibuf : Bytes) (i : Nat) : Block := toReg 16 (memRead ibuf (16 * i) 16)

/-- The input unit `IBUF[16i .. 16i+r)` of a stream mode, `r = min(16, ILEN - 16i)` (R150). -/
def streamUnit (ibuf : Bytes) (i : Nat) : Bytes := memRead ibuf (16 * i) (min 16 (ibuf.length - 16 * i))

end Sys2Proof.Machine
end

