-- ==== Sys2Proof/Machine/Flags.lean ====
section
/-! DEFINITION. The status word (R32) and the error word (R33, R211). CORE has no arithmetic flags (R35). -/

namespace Sys2Proof.Machine

/-- KLC, the key length code (R32). -/
def keyLenCode : KeyLen → BitVec 2
  | .none => 0
  | .b16 => 1
  | .b24 => 2
  | .b32 => 3

/-- KEYV: `KLEN != 0` (R32). -/
def State.keyValid (s : State) : Bool := s.klen != .none

/-- STATUS, bit by bit from bit 31 down (R32). -/
def statusWord (s : State) : Word :=
  (0 : BitVec 24) ++ keyLenCode s.klen ++ BitVec.ofBool s.ivv ++ BitVec.ofBool s.keyValid ++ BitVec.ofBool s.ovr
    ++ BitVec.ofBool s.err ++ BitVec.ofBool s.done ++ BitVec.ofBool s.busy

/-- The numbers of the error codes (R211). -/
def ErrCode.code : ErrCode → Byte
  | .cmd => 1
  | .mode => 2
  | .keylen => 3
  | .ivlen => 4
  | .ivmiss => 5
  | .align => 6
  | .pad => 7
  | .blk => 8
  | .hash => 9

/-- The code a word that is not a command raises (R78, R212, R213). -/
def decodeErrCode : DecodeError → ErrCode
  | .illegal => .cmd
  | .unsupportedMode => .mode

/-- `E_X OR (CUR[7:0] << 8)` (R33, R221). -/
def errWord (e : ErrCode) (cur : Word) : Word := (0 : BitVec 16) ++ opField cur ++ e.code

end Sys2Proof.Machine
end

