-- ==== Sys2Proof/Machine/Ops.lean ====
section
/-! DEFINITION. The operations the commands share: issue (R176), normal completion (R179), error completion (R221), appending to
OBUF (R19), staying in a phase (R175), reading a register (R30, R40). -/

namespace Sys2Proof.Machine

/-- Issue, for every word whatsoever (R176). -/
def State.issue (w : Word) (s : State) : State :=
  { s with cur := w, busy := true, done := false, err := false, ovr := false, errcode := 0, obuf := [], blkidx := 0,
           phase := .check }

/-- Normal completion (R179). -/
def State.complete (s : State) : State := { s with done := true, busy := false, phase := .idle }

/-- Error completion, `raise E_X` (R221): CORE's only exception entry. There is no return from it (R223): the next accepted
command clears ERR and ERRCODE by `issue`. -/
def State.raise (e : ErrCode) (s : State) : State :=
  { s with obuf := [], errcode := errWord e s.cur, err := true, done := true, busy := false, phase := .idle }

/-- `MemWrite(OBUF, |OBUF|, |v|, v)` of R19: OBUF is only ever appended to. -/
def State.appendOut (v : Bytes) (s : State) : State := { s with obuf := s.obuf ++ v }

/-- At most `n` sequencer steps `f`, as long as PHASE is `ph`: the `while` loops of the phases (R175). -/
def whilePhase (ph : Phase) (f : State → State) : Nat → State → State
  | 0, s => s
  | n + 1, s => if s.phase = ph then whilePhase ph f n (f s) else s

/-- One byte of IBUF or OBUF by its offset; an offset at or past the length holds no byte (R19, R50; log 13). -/
def byteAt (b : Bytes) (off : Nat) : Option Byte := b[off]?

/-- The capacities of the two buffers (R51, R52, R248). -/
abbrev Memory.wf (P : Platform) (s : State) : Prop :=
  s.ibuf.length ≤ P.lenMax ∧ s.obuf.length ≤ max (P.lenMax + 16) 65535

/-- A read of a register by number (R30, R34); while BUSY all but STATUS, ERRCODE, CUR and the constant 0 answer any value,
the draw numbered `hostReads` (R40; log 9). -/
def readReg (P : Platform) (n : Nat) (s : State) : Reply :=
  match n with
  | 0 => .word 0
  | 1 => .word (statusWord s)
  | 2 => .word s.errcode
  | 3 => .count (if s.busy then P.busyCount s.hostReads else s.ibuf.length)
  | 4 => .count (if s.busy then P.busyCount s.hostReads else s.obuf.length)
  | 5 => .count (if s.busy then P.busyCount s.hostReads else s.blkidx)
  | 6 => .count (if s.busy then (P.busyKrnd s.hostReads).toNat else s.krnd)
  | 7 => .word s.cur
  | 8 => .bytes (if s.busy then (toBE128 (P.busyBlock s.hostReads).toNat).val else s.iv.val)
  | 9 => .bytes (if s.busy then (toBE128 (P.busyBlock s.hostReads).toNat).val else s.fb.val)
  | _ => .word 0

/-- A read-out of OBUF (R59); while BUSY it answers any value (R40; log 9). -/
def readOut (P : Platform) (s : State) : Reply :=
  .bytes (if s.busy then P.busyBytes s.hostReads else s.obuf)

/-- A read made while BUSY uses up one draw; nothing else changes but the model's own record of the answer (R58; log 8, log 9). -/
def State.answer (r : Reply) (s : State) : State :=
  { s with reply := some r, hostReads := if s.busy then s.hostReads + 1 else s.hostReads }

end Sys2Proof.Machine
end

