-- ==== Sys2Proof/Machine/Facade.lean ====
section
/-! DEFINITION. The façade commands KEYLD (R180), IVLD (R181) and CLEAR (R182). -/

namespace Sys2Proof.Machine

/-- CHECK of KEYLD (R180): a failed load removes any key loaded before. -/
def keyldCheck (s : State) : State :=
  match keyLenOf s.ibuf.length with
  | some l => State.complete { s with key := toReg 32 s.ibuf, klen := l }
  | none => State.raise .keylen { s with key := ByteReg.zero 32, klen := .none }

/-- CHECK of IVLD (R181): a failed load removes any IV loaded before. -/
def ivldCheck (s : State) : State :=
  if s.ibuf.length = 16 then State.complete { s with iv := toReg 16 s.ibuf, ivv := true }
  else State.raise .ivlen { s with iv := ByteReg.zero 16, ivv := false }

/-- CHECK of CLEAR (R182). The entropy state is not written. -/
def clearCheck (s : State) : State :=
  State.complete
    { s with key := ByteReg.zero 32, klen := .none, iv := ByteReg.zero 16, ivv := false, fb := ByteReg.zero 16,
             kst := ByteReg.zero 64, krnd := 0, ibuf := [] }

/-- KEYLD (R180): load and validate the key. -/
def execKeyld (s : State) : Host.Outcome State Fault Refusal := .next (keyldCheck (s.issue (encode .keyld)))

/-- IVLD (R181): load and validate the IV. -/
def execIvld (s : State) : Host.Outcome State Fault Refusal := .next (ivldCheck (s.issue (encode .ivld)))

/-- CLEAR (R182): end of the key and IV lifecycle. -/
def execClear (s : State) : Host.Outcome State Fault Refusal := .next (clearCheck (s.issue (encode .clear)))

end Sys2Proof.Machine
end

