-- ==== Sys2Proof/Machine/Kdf.lean ====
section
/-! DEFINITION. The key-derivation engine and the command KDF (R110 to R120). -/

namespace Sys2Proof.Machine

/-- KDF_ROUNDS (R9). -/
def kdfRounds : Nat := 100000

/-- KXF on one byte: `s[j]` rotated left by 3, XOR `(i >> (j mod 8)) AND 0xFF` (R114). -/
def kxfByte (i j : Nat) (x : Byte) : Byte := rotl8 x 3 ^^^ BitVec.ofNat 8 (i >>> (j % 8))

/-- `KXF(s, i)` of R114, byte by byte. -/
def kxf (s : ByteReg 64) (i : Nat) : ByteReg 64 :=
  ⟨List.zipWith (kxfByte i) (List.range 64) s.val, by simp [s.property]⟩

/-- CHECK of KDF: nothing to check (R111, R175). -/
def kdfCheck (s : State) : State := { s with phase := .kinit }

/-- KINIT (R112, R116). -/
def kinitStep (P : Platform) (s : State) : State :=
  match P.h512 s.ibuf with
  | none => s.raise .hash
  | some h => { s with kst := h, krnd := 0, phase := .krun }

/-- One step in KRUN: one iteration, or the end of the loop (R113, R116). -/
def krunStep (P : Platform) (s : State) : State :=
  if s.krnd < kdfRounds then
    match P.h512 s.kst.val with
    | none => s.raise .hash
    | some h => { s with kst := kxf h s.krnd, krnd := s.krnd + 1 }
  else { s with phase := .kout }

/-- KOUT: `OBUF <- KST[0..16)` (R115, R116). -/
def koutStep (s : State) : State := State.complete { s with obuf := s.kst.val.take 16 }

/-- KDF on a platform (R116). -/
def kdfOn (P : Platform) (s : State) : State :=
  let s1 := kdfCheck (s.issue (encode .kdf))
  let s2 := whilePhase .kinit (kinitStep P) 1 s1
  let s3 := whilePhase .krun (krunStep P) (kdfRounds + 1) s2
  whilePhase .kout koutStep 1 s3

/-- KDF (R116): the derived 16-byte key in OBUF. -/
def execKdf (s : State) : Host.Outcome State Fault Refusal := .next (kdfOn Config.platform s)

end Sys2Proof.Machine
end

