-- ==== Sys2Proof/Machine/Entropy.lean ====
section
/-! DEFINITION. The entropy generator (R90 to R102) and the command RNG (R98). -/

namespace Sys2Proof.Machine

/-- The end of a piece of generation: something drawn, or E_HASH (R100); the generator's state is kept either way. -/
inductive Drawn (α : Type) where
  | got (a : α) (e : Entropy)
  | failed (e : Entropy)

/-- ENT.RESAMPLE_IF_DUE (R93). The two readings are draws, replaced by the fallbacks when UNAVAIL (R16). -/
def entResampleIfDue (P : Platform) (e : Entropy) : Entropy :=
  if e.esv = false ∨ 1000 ≤ e.ebits then
    { e with emem := (P.envMem e.envReads).getD P.fallbackMem, ets := (P.envTs e.envReads).getD P.fallbackTs,
             esv := true, ebits := 0, envReads := e.envReads + 1 }
  else e

/-- ENT.HASHCALL (R94); none is FAIL, and then nothing has changed (R100). -/
def entHashCall (P : Platform) (e : Entropy) : Option Entropy :=
  match P.edigest e.ecnt.toNat e.emem e.ets with
  | none => none
  | some d => some { e with edig := d.val, edpos := 0, ecnt := e.ecnt + 1 }

/-- The bit taken from the next unused digest byte: its bit 0 (R92, R95). -/
def entTakeBit (e : Entropy) : Drawn Bool :=
  .got ((e.edig.getD e.edpos 0).getLsbD 0) { e with edpos := e.edpos + 1, ebits := e.ebits + 1 }

/-- ENT.BIT (R92). -/
def entBit (P : Platform) (e : Entropy) : Drawn Bool :=
  if e.edpos = P.le then
    match entHashCall P (entResampleIfDue P e) with
    | none => .failed (entResampleIfDue P e)
    | some e' => entTakeBit e'
  else entTakeBit e

/-- `n` bits shifted into an accumulator, the first drawn ending highest (R96). -/
def entBits (P : Platform) : Nat → Byte → Entropy → Drawn Byte
  | 0, acc, e => .got acc e
  | n + 1, acc, e =>
    match entBit P e with
    | .failed e' => .failed e'
    | .got b e' => entBits P n ((acc <<< 1) ||| (BitVec.ofBool b).setWidth 8) e'

/-- ENT.BYTE (R96). -/
def entByte (P : Platform) (e : Entropy) : Drawn Byte := entBits P 8 0 e

/-- ENT.BYTES(n) (R97). -/
def entBytes (P : Platform) : Nat → Entropy → Drawn Bytes
  | 0, e => .got [] e
  | n + 1, e =>
    match entByte P e with
    | .failed e' => .failed e'
    | .got b e' =>
      match entBytes P n e' with
      | .failed e'' => .failed e''
      | .got bs e'' => .got (b :: bs) e''

/-- CHECK of RNG: nothing to check (R98, R175). -/
def rngCheck (s : State) : State := { s with phase := .gen }

/-- One step in GEN: one byte, or the end (R98, R175). -/
def genStep (P : Platform) (n : Nat) (s : State) : State :=
  if s.obuf.length < n then
    match entByte P s.ent with
    | .failed e => State.raise .hash { s with ent := e }
    | .got b e => State.appendOut [b] { s with ent := e }
  else s.complete

/-- RNG on a platform (R98). -/
def rngOn (P : Platform) (n : Nat) (s : State) : State :=
  whilePhase .gen (genStep P n) (n + 1) (rngCheck (s.issue (encode (.rng n))))

/-- RNG (R98): the next `n` bytes of the generator's stream in OBUF, or E_HASH. -/
def execRng (n : Nat) (s : State) : Host.Outcome State Fault Refusal := .next (rngOn Config.platform n s)

end Sys2Proof.Machine
end

