-- ==== Sys2Proof/Machine/Engine.lean ====
section
/-! DEFINITION. What the ten cipher commands share: the checks (R177), automatic IV generation (R178), the block loop (R186),
the final step (R187). -/

namespace Sys2Proof.Machine

/-- A command's STEP function (R186): from the state and the block index to the output unit and the new FB; none when the
block primitive answered FAIL. -/
abbrev BlockStep := Platform → State → Nat → Option (Bytes × Block)

/-- On entering RUN, `FB <- IV` unless the mode is ECB (R23, R186). -/
def enterRun (m : Mode) (s : State) : State :=
  { s with fb := if needsIV m then s.iv else s.fb, phase := .run }

/-- CHECK of a cipher command, in the order of R177; the first check that fails ends the command. -/
def cipherCheck (m : Mode) (d : Dir) (autoiv : Bool) (s : State) : State :=
  if s.klen = .none then s.raise .keylen
  else if needsIV m = true ∧ s.ivv = false ∧ autoiv = false then s.raise .ivmiss
  else if padded m = true ∧ d = .dec ∧ s.ibuf.length % 16 ≠ 0 then s.raise .align
  else if needsIV m = true ∧ s.ivv = false then { s with phase := .ivgen }
  else enterRun m s

/-- IVGEN (R178): sixteen generated bytes become the IV; on E_HASH, IV and IVV are unchanged. -/
def ivgenStep (P : Platform) (m : Mode) (s : State) : State :=
  match entBytes P 16 s.ent with
  | .failed e => State.raise .hash { s with ent := e }
  | .got v e => enterRun m { s with ent := e, iv := toReg 16 v, ivv := true }

/-- One step in RUN: one block, or the move to FINAL (R175, R186). A failing primitive leaves FB and BLKIDX as they were
(R219). -/
def runStep (P : Platform) (m : Mode) (d : Dir) (step : BlockStep) (s : State) : State :=
  if s.blkidx < blockCount m d s.ibuf.length then
    match step P s s.blkidx with
    | none => s.raise .blk
    | some (out, fb) => State.appendOut out { s with fb := fb, blkidx := s.blkidx + 1 }
  else { s with phase := .final }

/-- FINAL (R187): a padded decryption is unpadded or raises E_PAD; every other command completes. -/
def finalStep (m : Mode) (d : Dir) (s : State) : State :=
  if padded m = true ∧ d = .dec then
    match unpad s.obuf with
    | none => s.raise .pad
    | some out => State.complete { s with obuf := out }
  else s.complete

/-- The block loop of an issued cipher command in RUN, up to FINAL or E_BLK (R186). -/
def runBlocks (P : Platform) (m : Mode) (d : Dir) (step : BlockStep) (s : State) : State :=
  whilePhase .run (runStep P m d step) (blockCount m d s.ibuf.length + 1) s

/-- A whole cipher command, the phases CHECK, IVGEN, RUN and FINAL in order (R175 to R187). -/
def cipherOn (P : Platform) (m : Mode) (d : Dir) (autoiv : Bool) (step : BlockStep) (s : State) : State :=
  let s1 := cipherCheck m d autoiv (s.issue (encode (Instr.ofCipher m d autoiv)))
  let s2 := whilePhase .ivgen (ivgenStep P m) 1 s1
  let s3 := runBlocks P m d step s2
  whilePhase .final (finalStep m d) 1 s3

end Sys2Proof.Machine
end

