-- ==== Sys2Proof/Machine/Padded.lean ====
section
/-! DEFINITION. The padded modes, ECB and CBC (R125 to R145). -/

namespace Sys2Proof.Machine

/-- STEP_ECB_ENC (R128). FB is not touched. -/
def stepEcbEnc (P : Platform) (s : State) (i : Nat) : Option (Bytes × Block) :=
  match P.enc s.keyInForce (paddedBlock s.ibuf i) with
  | none => none
  | some c => some (c.val, s.fb)

/-- STEP_ECB_DEC (R132). FB is not touched. -/
def stepEcbDec (P : Platform) (s : State) (i : Nat) : Option (Bytes × Block) :=
  match P.dec s.keyInForce (cipherBlock s.ibuf i) with
  | none => none
  | some p => some (p.val, s.fb)

/-- STEP_CBC_ENC (R136). -/
def stepCbcEnc (P : Platform) (s : State) (i : Nat) : Option (Bytes × Block) :=
  match P.enc s.keyInForce (xorBlock (paddedBlock s.ibuf i) s.fb) with
  | none => none
  | some c => some (c.val, c)

/-- STEP_CBC_DEC (R140): FB takes the received ciphertext block. -/
def stepCbcDec (P : Platform) (s : State) (i : Nat) : Option (Bytes × Block) :=
  match P.dec s.keyInForce (cipherBlock s.ibuf i) with
  | none => none
  | some t => some ((xorBlock t s.fb).val, cipherBlock s.ibuf i)

/-- ECB.ENC on a platform (R128). -/
def ecbEncOn (P : Platform) (autoiv : Bool) (s : State) : State := cipherOn P .ecb .enc autoiv stepEcbEnc s

/-- ECB.DEC on a platform (R132). -/
def ecbDecOn (P : Platform) (autoiv : Bool) (s : State) : State := cipherOn P .ecb .dec autoiv stepEcbDec s

/-- CBC.ENC on a platform (R136). -/
def cbcEncOn (P : Platform) (autoiv : Bool) (s : State) : State := cipherOn P .cbc .enc autoiv stepCbcEnc s

/-- CBC.DEC on a platform (R140). -/
def cbcDecOn (P : Platform) (autoiv : Bool) (s : State) : State := cipherOn P .cbc .dec autoiv stepCbcDec s

/-- ECB.ENC (R128). AUTOIV has no effect (R129). -/
def execEcbEnc (autoiv : Bool) (s : State) : Host.Outcome State Fault Refusal :=
  .next (ecbEncOn Config.platform autoiv s)

/-- ECB.DEC (R132). AUTOIV has no effect (R129). -/
def execEcbDec (autoiv : Bool) (s : State) : Host.Outcome State Fault Refusal :=
  .next (ecbDecOn Config.platform autoiv s)

/-- CBC.ENC (R136). -/
def execCbcEnc (autoiv : Bool) (s : State) : Host.Outcome State Fault Refusal :=
  .next (cbcEncOn Config.platform autoiv s)

/-- CBC.DEC (R140). -/
def execCbcDec (autoiv : Bool) (s : State) : Host.Outcome State Fault Refusal :=
  .next (cbcDecOn Config.platform autoiv s)

end Sys2Proof.Machine
end

