-- ==== Sys2Proof/Machine/Stream.lean ====
section
/-! DEFINITION. The stream modes, CFB, OFB and CTR (R150 to R163). Only `E` is used, in both directions. -/

namespace Sys2Proof.Machine

/-- The feedback register is fed with a full ciphertext block and is unchanged by a shorter final one (R151, R160). -/
def feedback (fb : Block) (c : Bytes) : Block := if c.length = 16 then toReg 16 c else fb

/-- The counter plus one, modulo 2^128, big-endian (R157). -/
def nextCounter (fb : Block) : Block := toBE128 ((be128 fb + 1) % 2 ^ 128)

/-- STEP_CFB_ENC (R151). -/
def stepCfbEnc (P : Platform) (s : State) (i : Nat) : Option (Bytes × Block) :=
  match P.enc s.keyInForce s.fb with
  | none => none
  | some k =>
    let c := xorBytes (streamUnit s.ibuf i) k.val
    some (c, feedback s.fb c)

/-- STEP_CFB_DEC (R152): fed with the ciphertext received. -/
def stepCfbDec (P : Platform) (s : State) (i : Nat) : Option (Bytes × Block) :=
  match P.enc s.keyInForce s.fb with
  | none => none
  | some k =>
    let c := streamUnit s.ibuf i
    some (xorBytes c k.val, feedback s.fb c)

/-- STEP_OFB, the same for both directions (R153, R154). -/
def stepOfb (P : Platform) (s : State) (i : Nat) : Option (Bytes × Block) :=
  match P.enc s.keyInForce s.fb with
  | none => none
  | some k => some (xorBytes (streamUnit s.ibuf i) k.val, k)

/-- STEP_CTR, the same for both directions (R155, R156). -/
def stepCtr (P : Platform) (s : State) (i : Nat) : Option (Bytes × Block) :=
  match P.enc s.keyInForce s.fb with
  | none => none
  | some k => some (xorBytes (streamUnit s.ibuf i) k.val, nextCounter s.fb)

/-- CFB.ENC on a platform (R151). -/
def cfbEncOn (P : Platform) (autoiv : Bool) (s : State) : State := cipherOn P .cfb .enc autoiv stepCfbEnc s

/-- CFB.DEC on a platform (R152). -/
def cfbDecOn (P : Platform) (autoiv : Bool) (s : State) : State := cipherOn P .cfb .dec autoiv stepCfbDec s

/-- OFB.ENC on a platform (R153). -/
def ofbEncOn (P : Platform) (autoiv : Bool) (s : State) : State := cipherOn P .ofb .enc autoiv stepOfb s

/-- OFB.DEC on a platform (R154). -/
def ofbDecOn (P : Platform) (autoiv : Bool) (s : State) : State := cipherOn P .ofb .dec autoiv stepOfb s

/-- CTR.ENC on a platform (R155). -/
def ctrEncOn (P : Platform) (autoiv : Bool) (s : State) : State := cipherOn P .ctr .enc autoiv stepCtr s

/-- CTR.DEC on a platform (R156). -/
def ctrDecOn (P : Platform) (autoiv : Bool) (s : State) : State := cipherOn P .ctr .dec autoiv stepCtr s

/-- CFB.ENC (R151). -/
def execCfbEnc (autoiv : Bool) (s : State) : Host.Outcome State Fault Refusal :=
  .next (cfbEncOn Config.platform autoiv s)

/-- CFB.DEC (R152). -/
def execCfbDec (autoiv : Bool) (s : State) : Host.Outcome State Fault Refusal :=
  .next (cfbDecOn Config.platform autoiv s)

/-- OFB.ENC (R153). -/
def execOfbEnc (autoiv : Bool) (s : State) : Host.Outcome State Fault Refusal :=
  .next (ofbEncOn Config.platform autoiv s)

/-- OFB.DEC (R154). -/
def execOfbDec (autoiv : Bool) (s : State) : Host.Outcome State Fault Refusal :=
  .next (ofbDecOn Config.platform autoiv s)

/-- CTR.ENC (R155). -/
def execCtrEnc (autoiv : Bool) (s : State) : Host.Outcome State Fault Refusal :=
  .next (ctrEncOn Config.platform autoiv s)

/-- CTR.DEC (R156). -/
def execCtrDec (autoiv : Bool) (s : State) : Host.Outcome State Fault Refusal :=
  .next (ctrDecOn Config.platform autoiv s)

end Sys2Proof.Machine
end

