-- ==== Sys2Proof/Machine/Sequencer.lean ====
section
/-! DEFINITION. The sequencer one step at a time (R175), and every command on an arbitrary platform. -/

namespace Sys2Proof.Machine

/-- The STEP function of a mode and a direction (R186). -/
def blockStepOf : Mode → Dir → BlockStep
  | .ecb, .enc => stepEcbEnc
  | .ecb, .dec => stepEcbDec
  | .cbc, .enc => stepCbcEnc
  | .cbc, .dec => stepCbcDec
  | .cfb, .enc => stepCfbEnc
  | .cfb, .dec => stepCfbDec
  | .ofb, .enc => stepOfb
  | .ofb, .dec => stepOfb
  | .ctr, .enc => stepCtr
  | .ctr, .dec => stepCtr

/-- The step that leaves CHECK, for a decoded command (R175). -/
def checkOf : Instr → State → State
  | .clear, s => clearCheck s
  | .keyld, s => keyldCheck s
  | .ivld, s => ivldCheck s
  | .ecbEnc a, s => cipherCheck .ecb .enc a s
  | .ecbDec a, s => cipherCheck .ecb .dec a s
  | .cbcEnc a, s => cipherCheck .cbc .enc a s
  | .cbcDec a, s => cipherCheck .cbc .dec a s
  | .cfbEnc a, s => cipherCheck .cfb .enc a s
  | .cfbDec a, s => cipherCheck .cfb .dec a s
  | .ofbEnc a, s => cipherCheck .ofb .enc a s
  | .ofbDec a, s => cipherCheck .ofb .dec a s
  | .ctrEnc a, s => cipherCheck .ctr .enc a s
  | .ctrDec a, s => cipherCheck .ctr .dec a s
  | .kdf, s => kdfCheck s
  | .rng _, s => rngCheck s

/-- CHECK: the latched word is decoded first; a word that is not a command raises E_CMD or E_MODE before anything else is
looked at (R176). -/
def checkStep (s : State) : State :=
  match decode s.cur with
  | .error e => s.raise (decodeErrCode e)
  | .ok i => checkOf i s

/-- The command in flight, as decoded from CUR (R29). -/
def inFlight (s : State) : Option Instr :=
  match decode s.cur with
  | .error _ => none
  | .ok i => some i

/-- The mode and direction of the cipher command in flight. -/
def cipherInFlight (s : State) : Option (Mode × Dir) :=
  match inFlight s with
  | none => none
  | some i =>
    match cipherFields i with
    | none => none
    | some (m, d, _) => some (m, d)

/-- A step of a cipher phase; without a cipher command in flight the phase has no transition (log 11). -/
def cipherTurn (s : State) (f : Mode → Dir → State) : Host.Outcome State Fault Refusal :=
  match cipherInFlight s with
  | none => .fault .noTransition
  | some (m, d) => .next (f m d)

/-- A step of IVGEN; ECB commands never enter it (R177; log 11). -/
def ivgenTurn (P : Platform) (s : State) : Host.Outcome State Fault Refusal :=
  match cipherInFlight s with
  | none => .fault .noTransition
  | some (m, _) => if needsIV m then .next (ivgenStep P m s) else .fault .noTransition

/-- A step of a KDF phase (log 11). -/
def kdfTurn (s : State) (t : State) : Host.Outcome State Fault Refusal :=
  if inFlight s = some .kdf then .next t else .fault .noTransition

/-- A step of GEN (log 11). -/
def genTurn (P : Platform) (s : State) : Host.Outcome State Fault Refusal :=
  match inFlight s with
  | some (.rng n) => .next (genStep P n s)
  | _ => .fault .noTransition

/-- One sequencer step (R175). In IDLE no step is enabled and nothing changes (log 7). -/
def sequencerTurn (P : Platform) (s : State) : Host.Outcome State Fault Refusal :=
  match s.phase with
  | .idle => .next s
  | .check => .next (checkStep s)
  | .ivgen => ivgenTurn P s
  | .run => cipherTurn s fun m d => runStep P m d (blockStepOf m d) s
  | .final => cipherTurn s fun m d => finalStep m d s
  | .kinit => kdfTurn s (kinitStep P s)
  | .krun => kdfTurn s (krunStep P s)
  | .kout => kdfTurn s (koutStep s)
  | .gen => genTurn P s

/-- `n` sequencer steps in a row, no host move between them. -/
def sequencerRun (P : Platform) : Nat → State → Host.Outcome State Fault Refusal
  | 0, s => .next s
  | n + 1, s =>
    match sequencerTurn P s with
    | .next t => sequencerRun P n t
    | .fault r => .fault r
    | .refused r => .refused r

/-- An accepted command run to completion on a platform (R64). -/
def perform (P : Platform) : Instr → State → State
  | .clear, s => clearCheck (s.issue (encode .clear))
  | .keyld, s => keyldCheck (s.issue (encode .keyld))
  | .ivld, s => ivldCheck (s.issue (encode .ivld))
  | .ecbEnc a, s => ecbEncOn P a s
  | .ecbDec a, s => ecbDecOn P a s
  | .cbcEnc a, s => cbcEncOn P a s
  | .cbcDec a, s => cbcDecOn P a s
  | .cfbEnc a, s => cfbEncOn P a s
  | .cfbDec a, s => cfbDecOn P a s
  | .ofbEnc a, s => ofbEncOn P a s
  | .ofbDec a, s => ofbDecOn P a s
  | .ctrEnc a, s => ctrEncOn P a s
  | .ctrDec a, s => ctrDecOn P a s
  | .kdf, s => kdfOn P s
  | .rng n, s => rngOn P n s

end Sys2Proof.Machine
end

