-- ==== Sys2Proof/Machine/Dispatch.lean ====
section
/-! DEFINITION. One arm per command. -/

namespace Sys2Proof.Machine

def exec (i : Instr) (s : State) : Host.Outcome State Fault Refusal :=
  match i with
  | .clear => Sys2Proof.Machine.execClear s
  | .keyld => Sys2Proof.Machine.execKeyld s
  | .ivld => Sys2Proof.Machine.execIvld s
  | .ecbEnc a => Sys2Proof.Machine.execEcbEnc a s
  | .ecbDec a => Sys2Proof.Machine.execEcbDec a s
  | .cbcEnc a => Sys2Proof.Machine.execCbcEnc a s
  | .cbcDec a => Sys2Proof.Machine.execCbcDec a s
  | .cfbEnc a => Sys2Proof.Machine.execCfbEnc a s
  | .cfbDec a => Sys2Proof.Machine.execCfbDec a s
  | .ofbEnc a => Sys2Proof.Machine.execOfbEnc a s
  | .ofbDec a => Sys2Proof.Machine.execOfbDec a s
  | .ctrEnc a => Sys2Proof.Machine.execCtrEnc a s
  | .ctrDec a => Sys2Proof.Machine.execCtrDec a s
  | .kdf => Sys2Proof.Machine.execKdf s
  | .rng n => Sys2Proof.Machine.execRng n s

end Sys2Proof.Machine
end

