-- ==== Sys2Proof/Machine/HostMoves.lean ====
section
/-! DEFINITION. The host moves (R56 to R60, R30) and the one turn a pending move stands for. -/

namespace Sys2Proof.Machine

/-- H.LOAD(b) (R56): the whole buffer is replaced. While BUSY, and for more than LEN_MAX bytes, it is not a move (log 10). -/
def loadMove (P : Platform) (b : Bytes) (s : State) : Host.Outcome State Fault Refusal :=
  if s.busy then .refused .loadWhileBusy
  else if P.lenMax < b.length then .refused .loadTooLong
  else .next { s with ibuf := b }

/-- H.CMD(w) (R57): dropped while BUSY (R225); otherwise accepted. `run` is what an accepted command does; a word that is not a
command is accepted too, and completes at once with its error (R78). -/
def cmdMove (run : Instr → State → Host.Outcome State Fault Refusal) (w : Word) (s : State) :
    Host.Outcome State Fault Refusal :=
  if s.busy then .next { s with ovr := true }
  else
    match decode w with
    | .ok i => run i s
    | .error e => .next ((s.issue w).raise (decodeErrCode e))

/-- H.CMD(w) that only issues the command; the sequencer then runs it (R57, R176; log 6). -/
def cmdPhasedMove (w : Word) (s : State) : State :=
  if s.busy then { s with ovr := true } else s.issue w

/-- H.READ(n) (R58). -/
def readMove (P : Platform) (n : Nat) (s : State) : State := s.answer (readReg P n s)

/-- H.READOUT (R59). -/
def readOutMove (P : Platform) (s : State) : State := s.answer (readOut P s)

/-- H.RESET (R60, R235, R237): every piece of the spec's state takes its reset value, in any phase. The draw numbers go on,
since they belong to the environment (log 3), and the model's pending moves and last answer are kept (log 15). -/
def resetMove (le : Nat) (s : State) : State :=
  { State.resetWith le with
    ent := { Entropy.reset le with envReads := s.ent.envReads }, hostReads := s.hostReads, moves := s.moves, reply := s.reply }

/-- What a pending move does, on a platform and with the given way to run an accepted command (R56 to R60, R175). -/
def makeMove (P : Platform) (run : Instr → State → Host.Outcome State Fault Refusal) (m : Move) (s : State) :
    Host.Outcome State Fault Refusal :=
  match m with
  | .load b => loadMove P b s
  | .cmd w => cmdMove run w s
  | .cmdPhased w => .next (cmdPhasedMove w s)
  | .write n w => if n = 0 then cmdMove run w s else .next s
  | .read n => .next (readMove P n s)
  | .readout => .next (readOutMove P s)
  | .reset => .next (resetMove P.le s)
  | .tick => sequencerTurn P s

/-- One turn of the machine: the first pending move, or, with none pending, the sequencer (log 5, log 7). -/
def turn (P : Platform) (run : Instr → State → Host.Outcome State Fault Refusal) (s : State) :
    Host.Outcome State Fault Refusal :=
  match s.moves with
  | [] => sequencerTurn P s
  | m :: rest => makeMove P run m { s with moves := rest }

/-- The command word `w` as the next move, on a machine that is not BUSY, so that the next step accepts it (log 12). -/
def placeCommand (w : Word) (s : State) : State :=
  { s with moves := .cmd w :: s.moves, busy := false, phase := .idle }

end Sys2Proof.Machine
end

