-- ==== Sys2Proof/Machine/Step.lean ====
section
/-! DEFINITION. The step of the machine. There is no fetch (R3, R26): a command word comes to the machine by the host move
H.CMD, so placing a word for the next step means making that move the next one (log 12). -/

namespace Sys2Proof.Machine

/-- One step: one host move, one whole command run to completion, or one sequencer step (R17, R64, R175). -/
def step (s : State) : Host.Outcome State Fault Refusal := turn Config.platform exec s

/-- The command word whose bits are `w`, as the next move (log 12). -/
def State.withFetchWord (s : State) (nbits w : Nat) : State := placeCommand (BitVec.ofNat 32 (w % 2 ^ nbits)) s

end Sys2Proof.Machine
end

