-- ==== Sys2Proof/Safety.lean ====
section
/-! DEFINITION. What a safe run keeps (R38), and the terms the statements use: how a command ends (R179, R221), the block loop
over a list of input units (R125, R186), the KDF state after `n` iterations (R113). -/

namespace Sys2Proof.Machine

/-- Where the command in flight stands, phase by phase (R175, R186, R98, R116). -/
def phaseOk (s : State) : Prop :=
  match s.phase with
  | .idle => True
  | .check => s.obuf = [] ∧ s.blkidx = 0
  | .ivgen => s.obuf = [] ∧ s.blkidx = 0 ∧ ∃ m d, cipherInFlight s = some (m, d) ∧ needsIV m = true
  | .run => ∃ m d, cipherInFlight s = some (m, d) ∧ s.blkidx ≤ blockCount m d s.ibuf.length ∧ s.obuf.length ≤ 16 * s.blkidx
  | .final => ∃ m d, cipherInFlight s = some (m, d) ∧ s.blkidx = blockCount m d s.ibuf.length ∧ s.obuf.length ≤ 16 * s.blkidx
  | .kinit => s.obuf = [] ∧ inFlight s = some .kdf
  | .krun => s.obuf = [] ∧ inFlight s = some .kdf
  | .kout => s.obuf = [] ∧ inFlight s = some .kdf
  | .gen => ∃ n, inFlight s = some (.rng n) ∧ s.obuf.length ≤ n

/-- The invariants of R38, the bounds of R36, R51 and R52, and where the command in flight stands. -/
structure Inv (P : Platform) (s : State) : Prop where
  /-- `KEY[KLEN..32)` is all zero (R21, R38). -/
  keyTail : s.key.val.drop s.klen.toNat = List.replicate (32 - s.klen.toNat) 0
  /-- `IVV = 0` implies `IV = [0]*16` (R22, R38). -/
  ivZero : s.ivv = false → s.iv = ByteReg.zero 16
  /-- `BUSY = 1` if and only if `PHASE != IDLE` (R26, R38). -/
  busyIff : s.busy = true ↔ s.phase ≠ .idle
  /-- `BUSY = 1` implies `DONE = 0` (R32, R38). -/
  busyDone : s.busy = true → s.done = false
  /-- `ERR = 1` implies `DONE = 1`, an error code of R211 with its OPC, and an empty OBUF (R33, R38). -/
  errDone : s.err = true → s.done = true ∧ s.obuf = [] ∧ ∃ e : ErrCode, s.errcode = errWord e s.cur
  /-- `ERR = 0` implies `ERRCODE = 0` (R38). -/
  errZero : s.err = false → s.errcode = 0
  /-- `KRND <= 100000` (R28, R38). -/
  krndLe : s.krnd ≤ 100000
  /-- The capacities of IBUF and OBUF (R51, R52). -/
  buffers : Memory.wf P s
  /-- EDIG holds LE bytes (R36). -/
  edigLen : s.ent.edig.length = P.le
  /-- `EDPOS <= LE` (R36, R38). -/
  edposLe : s.ent.edpos ≤ P.le
  /-- EBITS is at most 999 plus the bits taken from the digest in hand, so at most `999 + LE` (R36, R93). -/
  ebitsLe : s.ent.ebits ≤ 999 + s.ent.edpos
  /-- `ESV = 0` implies `EDPOS = LE` and `ECNT = 0` (R38). -/
  unsampled : s.ent.esv = false → s.ent.edpos = P.le ∧ s.ent.ecnt = 0
  /-- PHASE agrees with the command in flight. -/
  phase : phaseOk s

/-- The state in which the command of word `w` has completed normally, everything the command itself writes already in
`s` (R176, R179). -/
def endedOk (w : Word) (s : State) : State :=
  { s with cur := w, busy := false, done := true, err := false, ovr := false, errcode := 0, phase := .idle }

/-- The state in which the command of word `w` has ended with error `e`, everything the command had written already in
`s` (R176, R221). -/
def endedErr (w : Word) (e : ErrCode) (s : State) : State :=
  { s with cur := w, busy := false, done := true, err := true, ovr := false, errcode := errWord e w, obuf := [],
           phase := .idle }

/-- The byte sequence cut into `n` units of 16 bytes, the last one shorter where the bytes run out (R150, R186). -/
def unitsOf : Nat → Bytes → List Bytes
  | 0, _ => []
  | n + 1, b => b.take 16 :: unitsOf n (b.drop 16)

/-- Where a block loop stopped: the output so far, the number of blocks processed, FB, and whether the primitive failed. -/
structure LoopEnd where
  out : Bytes
  blocks : Nat
  fb : Block
  failed : Bool

/-- A mode's rule (R125) applied to a list of input units in order, from the given FB on; `rule fb unit` answers the output
unit and the next FB, or none for FAIL (R186, R219). -/
def blockLoop (rule : Block → Bytes → Option (Bytes × Block)) : Block → List Bytes → LoopEnd
  | fb, [] => { out := [], blocks := 0, fb := fb, failed := false }
  | fb, u :: us =>
    match rule fb u with
    | none => { out := [], blocks := 0, fb := fb, failed := true }
    | some (o, fb') =>
      let r := blockLoop rule fb' us
      { out := o ++ r.out, blocks := r.blocks + 1, fb := r.fb, failed := r.failed }

/-- How a cipher command that is not a padded decryption ends after its block loop: E_BLK, or normally (R186, R187, R219). -/
def cipherEnd (w : Word) (r : LoopEnd) (s : State) : State :=
  if r.failed then endedErr w .blk { s with fb := r.fb, blkidx := r.blocks }
  else endedOk w { s with fb := r.fb, blkidx := r.blocks, obuf := r.out }

/-- How a padded decryption ends after its block loop: E_BLK, E_PAD, or normally with the unpadded bytes (R187, R218, R219). -/
def unpaddedEnd (w : Word) (r : LoopEnd) (s : State) : State :=
  if r.failed then endedErr w .blk { s with fb := r.fb, blkidx := r.blocks }
  else
    match unpad r.out with
    | none => endedErr w .pad { s with fb := r.fb, blkidx := r.blocks }
    | some out => endedOk w { s with fb := r.fb, blkidx := r.blocks, obuf := out }

/-- The KDF state on operand `m` after step 1 and `n` iterations, none if one of these hashes failed (R112, R113). -/
def kdfState (P : Platform) (m : Bytes) : Nat → Option (ByteReg 64)
  | 0 => P.h512 m
  | n + 1 => (kdfState P m n).bind fun st => (P.h512 st.val).map fun h => kxf h n

/-- The 16 bytes of block `i` of a byte sequence (R54). -/
def blockAt (b : Bytes) (i : Nat) : Bytes := memRead b (16 * i) 16

/-- A byte sequence with its block `i` replaced by that block XOR `e` (R141). -/
def tamperBlock (b : Bytes) (i : Nat) (e : Block) : Bytes :=
  b.take (16 * i) ++ xorBytes (blockAt b i) e.val ++ b.drop (16 * i + 16)

end Sys2Proof.Machine
end

