-- ==== Sys2Proof/Certificates/Slice0/Obligations.lean ====
section
/-! DEFINITION. The statements about the model. Each docstring names the rule it formalises; "log n" is notes/assumptions/n.md. -/

open Sys2Proof Sys2Proof.Machine

/-! ## The command word -/

/-- R73, R81: the words of the opcode map, written out, decode to their commands. -/
def Obligations.OpcodeMapWordsDecode : Prop :=
  decode 0x00000001 = .ok .clear ∧ decode 0x00000002 = .ok .keyld ∧ decode 0x00000003 = .ok .ivld ∧
  decode 0x00000010 = .ok (.ecbEnc false) ∧ decode 0x00000113 = .ok (.cbcDec true) ∧
  decode 0x00000115 = .ok (.cfbDec true) ∧ decode 0x00000016 = .ok (.ofbEnc false) ∧
  decode 0x00000018 = .ok (.ctrEnc false) ∧ decode 0x00000020 = .ok .kdf ∧ decode 0x00050030 = .ok (.rng 5)

/-- R72, R73, R78: decoding the word of a well-formed command gives it back, whatever its operand. -/
def Obligations.DecodeOfEncodeIsIdentity : Prop :=
  ∀ i : Instr, i.WellFormed → decode (encode i) = .ok i

/-- R72, R73, R78: a word that decodes to a command is that command's word, so no bit of it is dropped. -/
def Obligations.EncodeOfDecodeIsIdentity : Prop :=
  ∀ (w : Word) (i : Instr), decode w = .ok i → encode i = w ∧ i.WellFormed

/-- R80: a word is a command of the table if and only if it matches the row's mask and match; a word that matches no row is
illegal or of unsupported mode; and no word matches two rows. Each row is (mask, match, command). -/
def Obligations.MatchAndMaskDecide : Prop :=
  ∀ w : Word,
    let rows : List (Word × Word × Instr) := [
      (0xFFFFFFFF, 0x00000001, .clear),
      (0xFFFFFFFF, 0x00000002, .keyld),
      (0xFFFFFFFF, 0x00000003, .ivld),
      (0xFFFFFEFF, 0x00000010, .ecbEnc (w.getLsbD 8)),
      (0xFFFFFEFF, 0x00000011, .ecbDec (w.getLsbD 8)),
      (0xFFFFFEFF, 0x00000012, .cbcEnc (w.getLsbD 8)),
      (0xFFFFFEFF, 0x00000013, .cbcDec (w.getLsbD 8)),
      (0xFFFFFEFF, 0x00000014, .cfbEnc (w.getLsbD 8)),
      (0xFFFFFEFF, 0x00000015, .cfbDec (w.getLsbD 8)),
      (0xFFFFFEFF, 0x00000016, .ofbEnc (w.getLsbD 8)),
      (0xFFFFFEFF, 0x00000017, .ofbDec (w.getLsbD 8)),
      (0xFFFFFEFF, 0x00000018, .ctrEnc (w.getLsbD 8)),
      (0xFFFFFEFF, 0x00000019, .ctrDec (w.getLsbD 8)),
      (0xFFFFFFFF, 0x00000020, .kdf),
      (0x0000FFFF, 0x00000030, .rng (w.toNat / 65536))]
    (∀ r ∈ rows, w &&& r.1 = r.2.1 ↔ decode w = .ok r.2.2) ∧
    ((∀ r ∈ rows, w &&& r.1 ≠ r.2.1) → decode w = .error .illegal ∨ decode w = .error .unsupportedMode) ∧
    rows.Pairwise fun r q => ¬ (w &&& r.1 = r.2.1 ∧ w &&& q.1 = q.2.1)

/-- R213: a word is of unsupported mode exactly when RSV = 0, N = 0, OP[7:4] = 0001 and OP[3:1] is 5, 6 or 7. The fields are
read off the word as a number (R71). -/
def Obligations.UnsupportedModeWords : Prop :=
  ∀ w : Word, decode w = .error .unsupportedMode ↔
    w.toNat / 512 % 128 = 0 ∧ w.toNat / 65536 = 0 ∧ w.toNat / 16 % 16 = 1 ∧ 5 ≤ w.toNat / 2 % 8

/-! ## The step, the host moves and the sequencer -/

/-- R31, R57, R64, R81: when the next move is H.CMD of the word of a command, in its own form or as a write to register 0, and
the machine is not BUSY, the step is that command's `exec`, on the state in which the move has been taken. -/
def Obligations.StepRunsTheDecodedCommand : Prop :=
  ∀ (s : State) (w : Word) (i : Instr) (rest : List Move),
    (s.moves = .cmd w :: rest ∨ s.moves = .write 0 w :: rest) → s.busy = false → decode w = .ok i →
    step s = exec i { s with moves := rest }

/-- R78, R212, R213: a word that is not a command, written to CMD in either form, is accepted and completes at once with E_CMD or
E_MODE, and changes nothing else. -/
def Obligations.StepEndsNonCommandsWithTheirError : Prop :=
  ∀ (s : State) (w : Word) (rest : List Move), (s.moves = .cmd w :: rest ∨ s.moves = .write 0 w :: rest) → s.busy = false →
    (decode w = .error .illegal → step s = .next (endedErr w .cmd { s with moves := rest, blkidx := 0 })) ∧
    (decode w = .error .unsupportedMode → step s = .next (endedErr w .mode { s with moves := rest, blkidx := 0 }))

/-- R57, R225: a command word that arrives while BUSY is dropped and sets OVR, and nothing else changes. -/
def Obligations.CommandWhileBusyIsDropped : Prop :=
  ∀ (s : State) (w : Word) (rest : List Move), s.busy = true →
    (s.moves = .cmd w :: rest ∨ s.moves = .cmdPhased w :: rest ∨ s.moves = .write 0 w :: rest) →
    step s = .next { s with moves := rest, ovr := true }

/-- R176: an accepted command word is issued: CUR, the flags, ERRCODE, OBUF, BLKIDX and PHASE are written, and nothing else.
(This is the move that leaves the phases to the sequencer, log 6.) -/
def Obligations.IssueWritesExactlyItsState : Prop :=
  ∀ (s : State) (w : Word) (rest : List Move), s.moves = .cmdPhased w :: rest → s.busy = false →
    step s = .next { s with moves := rest, cur := w, busy := true, done := false, err := false, ovr := false, errcode := 0,
                            obuf := [], blkidx := 0, phase := .check }

/-- R56: an enabled load replaces IBUF and changes nothing else; a load while BUSY or of more than LEN_MAX bytes is not a move,
and the model refuses it by name (log 10). -/
def Obligations.LoadReplacesTheInputBuffer : Prop :=
  ∀ (s : State) (b : Bytes) (rest : List Move), s.moves = .load b :: rest →
    (s.busy = false → b.length ≤ Config.platform.lenMax → step s = .next { s with moves := rest, ibuf := b }) ∧
    (s.busy = true → step s = .refused .loadWhileBusy) ∧
    (s.busy = false → Config.platform.lenMax < b.length → step s = .refused .loadTooLong)

/-- R30, R34, R59: what a read of each register number, and a read-out, returns while not BUSY. It is kept in the model's own
field `reply` (log 8); no other state changes (R58). -/
def Obligations.ReadsReturnTheRegisters : Prop :=
  ∀ (s : State) (rest : List Move), s.busy = false →
    (∀ n : Nat, s.moves = .read n :: rest →
      step s = .next { s with moves := rest, reply := some (
        if n = 1 then .word (statusWord s)
        else if n = 2 then .word s.errcode
        else if n = 3 then .count s.ibuf.length
        else if n = 4 then .count s.obuf.length
        else if n = 5 then .count s.blkidx
        else if n = 6 then .count s.krnd
        else if n = 7 then .word s.cur
        else if n = 8 then .bytes s.iv.val
        else if n = 9 then .bytes s.fb.val
        else .word 0) }) ∧
    (s.moves = .readout :: rest → step s = .next { s with moves := rest, reply := some (.bytes s.obuf) })

/-- R30, R40, R58, R59: while BUSY, reads of STATUS, ERRCODE and CUR return their current values, reads of register 0 and of
numbers not listed return 0, and every other read, and a read-out, returns some value of the register's kind; no read changes any
state of the spec. (The draw counter `hostReads` and the record `reply` are the model's own, log 8, log 9.) -/
def Obligations.BusyReadsOfStatusErrcodeCurAreExact : Prop :=
  ∀ (s : State) (rest : List Move), s.busy = true →
    (∀ n : Nat, s.moves = .read n :: rest →
      ∃ r, step s = .next { s with moves := rest, reply := some r, hostReads := s.hostReads + 1 } ∧
        (n = 1 → r = .word (statusWord s)) ∧ (n = 2 → r = .word s.errcode) ∧ (n = 7 → r = .word s.cur) ∧
        (n = 0 ∨ 10 ≤ n → r = .word 0) ∧
        (n = 3 ∨ n = 4 ∨ n = 5 → ∃ k, r = .count k) ∧ (n = 6 → ∃ k, k < 2 ^ 17 ∧ r = .count k) ∧
        (n = 8 ∨ n = 9 → ∃ b : Block, r = .bytes b.val)) ∧
    (s.moves = .readout :: rest →
      ∃ b, step s = .next { s with moves := rest, reply := some (.bytes b), hostReads := s.hostReads + 1 })

/-- R30: a write to a register number other than 0 is ignored. -/
def Obligations.WritesToOtherRegistersAreIgnored : Prop :=
  ∀ (s : State) (n : Nat) (w : Word) (rest : List Move), n ≠ 0 → s.moves = .write n w :: rest →
    step s = .next { s with moves := rest }

/-- R21, R24, R226: KEY and KST have no read path: what a read returns does not depend on them. -/
def Obligations.ReadsDoNotSeeKeyOrKst : Prop :=
  ∀ (s : State) (k : ByteReg 32) (t : ByteReg 64) (n : Nat),
    readReg Config.platform n { s with key := k, kst := t } = readReg Config.platform n s ∧
    readOut Config.platform { s with key := k, kst := t } = readOut Config.platform s

/-- R39: the reset values. The model's own fields are its choice (log 15) and are not stated. -/
def Obligations.ResetHasTheSpecifiedValues : Prop :=
  let s := State.reset
  s.key.val = List.replicate 32 0 ∧ s.klen.toNat = 0 ∧ s.iv.val = List.replicate 16 0 ∧ s.ivv = false ∧
  s.fb.val = List.replicate 16 0 ∧ s.kst.val = List.replicate 64 0 ∧ s.phase = .idle ∧ s.cur = 0 ∧ s.blkidx = 0 ∧ s.krnd = 0 ∧
  s.busy = false ∧ s.done = false ∧ s.err = false ∧ s.ovr = false ∧ s.errcode = 0 ∧ s.ibuf = [] ∧ s.obuf = [] ∧
  s.ent.ecnt = 0 ∧ s.ent.emem = 0 ∧ s.ent.ets = 0 ∧ s.ent.esv = false ∧ s.ent.ebits = 0 ∧
  s.ent.edig = List.replicate Config.platform.le 0 ∧ s.ent.edpos = Config.platform.le

/-- R235, R237: H.RESET in any phase sets the spec's state to that of R39, an unfinished command included; the draw numbers of
the environment and the model's pending moves and last answer are the model's own and go on (log 3, log 15). -/
def Obligations.ResetMoveGivesTheResetState : Prop :=
  ∀ (s : State) (rest : List Move), s.moves = .reset :: rest →
    step s = .next
      { State.reset with
        ent := { State.reset.ent with envReads := s.ent.envReads },
        hostReads := s.hostReads, moves := rest, reply := s.reply }

/-- R32: the bits of STATUS. -/
def Obligations.StatusBits : Prop :=
  ∀ s : State,
    (statusWord s).getLsbD 0 = s.busy ∧ (statusWord s).getLsbD 1 = s.done ∧ (statusWord s).getLsbD 2 = s.err ∧
    (statusWord s).getLsbD 3 = s.ovr ∧ (statusWord s).getLsbD 4 = (s.klen.toNat != 0) ∧ (statusWord s).getLsbD 5 = s.ivv ∧
    (statusWord s).toNat / 64 % 4 = (match s.klen with | .none => 0 | .b16 => 1 | .b24 => 2 | .b32 => 3) ∧
    ∀ k, 8 ≤ k → (statusWord s).getLsbD k = false

/-- R33, R211: the fields of ERRCODE after an error, for every code and every command word. -/
def Obligations.ErrcodeFields : Prop :=
  ∀ (e : ErrCode) (w : Word),
    (errWord e w).toNat = (w.toNat % 256) * 256 + (match e with
      | .cmd => 1 | .mode => 2 | .keylen => 3 | .ivlen => 4 | .ivmiss => 5 | .align => 6 | .pad => 7 | .blk => 8 | .hash => 9)

/-- R64, R175, R176: a command issued and then run phase by phase by the sequencer, with no host move between, ends in exactly
the state that the one-step meaning of the command gives, on every platform and from every state; a word that is not a command
ends at CHECK with E_CMD or E_MODE (R78, R212, R213); and the machine's step is the sequencer's when the next move is the
sequencer's turn, and when no move is pending (R17; the list of moves is the model's, log 5). -/
def Obligations.PhaseByPhaseEqualsOneStep : Prop :=
  (∀ (P : Platform) (i : Instr) (s : State), i.WellFormed →
    ∃ n, sequencerRun P n (s.issue (encode i)) = .next (perform P i s)) ∧
  (∀ (P : Platform) (w : Word) (s : State),
    (decode w = .error .illegal → sequencerTurn P (s.issue w) = .next (endedErr w .cmd { s with blkidx := 0 })) ∧
    (decode w = .error .unsupportedMode → sequencerTurn P (s.issue w) = .next (endedErr w .mode { s with blkidx := 0 }))) ∧
  (∀ (s : State) (rest : List Move), s.moves = .tick :: rest →
    step s = sequencerTurn Config.platform { s with moves := rest }) ∧
  (∀ s : State, s.moves = [] → step s = sequencerTurn Config.platform s)

/-- The model's own arrangement (log 1, DESIGN CHOICE): the machine runs its commands on the platform of Config, so that a statement
made for every platform is a statement about `exec`. No rule of the spec says so. -/
def Obligations.ExecRunsOnTheConfiguredPlatform : Prop :=
  ∀ (i : Instr) (s : State), exec i s = .next (perform Config.platform i s)

/-- R18, R210, R221: every command completes, from every state; it leaves the machine idle, DONE, with its word in CUR, and
either no error and ERRCODE = 0, or ERR with a code and its OPC in ERRCODE and an empty OBUF. -/
def Obligations.EveryCommandCompletes : Prop :=
  ∀ (i : Instr) (s : State), ∃ t, exec i s = .next t ∧
    t.phase = .idle ∧ t.busy = false ∧ t.done = true ∧ t.ovr = false ∧ t.cur = encode i ∧
    ((t.err = false ∧ t.errcode = 0) ∨ (t.err = true ∧ t.obuf = [] ∧ ∃ e, t.errcode = errWord e (encode i)))

/-- R36, R38, R51, R52: the invariants of the state are kept by every step. -/
def Obligations.StepKeepsTheInvariants : Prop :=
  ∀ s t : State, Inv Config.platform s → step s = .next t → Inv Config.platform t

/-- R38, R39: the reset state has the invariants. -/
def Obligations.ResetHasTheInvariants : Prop := Inv Config.platform State.reset

/-- R175, R18: in a state with the invariants no step faults: the sequencer always has a transition. -/
def Obligations.InvariantStatesNeverFault : Prop :=
  ∀ (s : State) (r : Fault), Inv Config.platform s → step s ≠ .fault r

/-- R21, R22, R24, R28, R51, R36, R53: which commands write KEY and KLEN, IV and IVV, KST and KRND, IBUF, and the entropy
state: every other command leaves them. -/
def Obligations.OnlyTheNamedCommandsWriteEachRegister : Prop :=
  ∀ (i : Instr) (s t : State), exec i s = .next t →
    (i ≠ .keyld → i ≠ .clear → t.key = s.key ∧ t.klen = s.klen) ∧
    (i ≠ .ivld → i ≠ .clear → (s.ivv = true ∨ i.autoivBit = false) → t.iv = s.iv ∧ t.ivv = s.ivv) ∧
    (i ≠ .kdf → i ≠ .clear → t.kst = s.kst ∧ t.krnd = s.krnd) ∧
    (i ≠ .clear → t.ibuf = s.ibuf) ∧
    ((∀ n, i ≠ .rng n) → (s.ivv = true ∨ i.autoivBit = false) → t.ent = s.ent) ∧
    ((∀ m d a, i = Instr.ofCipher m d a → m = .ecb) → i ≠ .clear → t.fb = s.fb) ∧
    t.hostReads = s.hostReads ∧ t.moves = s.moves ∧ t.reply = s.reply

/-! ## The façade commands -/

/-- R182: CLEAR. -/
def Obligations.ClearEndsTheLifecycle : Prop :=
  ∀ s : State, exec .clear s = .next (endedOk 0x00000001
    { s with key := ByteReg.zero 32, klen := .none, iv := ByteReg.zero 16, ivv := false, fb := ByteReg.zero 16,
             kst := ByteReg.zero 64, krnd := 0, ibuf := [], obuf := [], blkidx := 0 })

/-- R180: KEYLD, for every length of IBUF. -/
def Obligations.KeyldLoadsOrRemovesTheKey : Prop :=
  ∀ s : State,
    ((s.ibuf.length = 16 ∨ s.ibuf.length = 24 ∨ s.ibuf.length = 32) →
      ∃ (k : ByteReg 32) (l : KeyLen), l.toNat = s.ibuf.length ∧ k.val = s.ibuf ++ List.replicate (32 - s.ibuf.length) 0 ∧
        exec .keyld s = .next (endedOk 0x00000002 { s with key := k, klen := l, obuf := [], blkidx := 0 })) ∧
    (¬ (s.ibuf.length = 16 ∨ s.ibuf.length = 24 ∨ s.ibuf.length = 32) →
      exec .keyld s = .next (endedErr 0x00000002 .keylen
        { s with key := ByteReg.zero 32, klen := .none, blkidx := 0 }))

/-- R181: IVLD, for every length of IBUF. -/
def Obligations.IvldLoadsOrRemovesTheIv : Prop :=
  ∀ s : State,
    (s.ibuf.length = 16 →
      ∃ v : Block, v.val = s.ibuf ∧
        exec .ivld s = .next (endedOk 0x00000003 { s with iv := v, ivv := true, obuf := [], blkidx := 0 })) ∧
    (s.ibuf.length ≠ 16 →
      exec .ivld s = .next (endedErr 0x00000003 .ivlen { s with iv := ByteReg.zero 16, ivv := false, blkidx := 0 }))

/-! ## The checks of the cipher commands (R177, R222) -/

/-- R214 (b), R216: a cipher command with no key raises E_KEYLEN, whatever else is wrong; with a key, a mode that needs an IV and
has none raises E_IVMISS when AUTOIV = 0. Neither changes anything else. -/
def Obligations.KeyAndIvAreCheckedFirst : Prop :=
  ∀ (m : Mode) (d : Dir) (a : Bool) (s : State),
    (s.klen = .none →
      exec (Instr.ofCipher m d a) s =
        .next (endedErr (encode (Instr.ofCipher m d a)) .keylen { s with blkidx := 0 })) ∧
    (s.klen ≠ .none → m ≠ .ecb → s.ivv = false → a = false →
      exec (Instr.ofCipher m d a) s =
        .next (endedErr (encode (Instr.ofCipher m d a)) .ivmiss { s with blkidx := 0 }))

/-- R217: a padded decryption of a misaligned length, the key and IV tests passed, raises E_ALIGN with ERRCODE 0x1106 or 0x1306:
FB is not loaded, no IV is generated even under AUTOIV, BLKIDX is 0, and nothing else changes, whatever `D` would answer. An empty
input is aligned, and raises E_PAD. -/
def Obligations.MisalignedPaddedDecryptRaisesAlign : Prop :=
  ∀ (a : Bool) (s : State), s.klen ≠ .none →
    (s.ibuf.length % 16 ≠ 0 →
      exec (.ecbDec a) s = .next (endedErr (encode (.ecbDec a)) .align { s with blkidx := 0 })) ∧
    (s.ibuf.length % 16 ≠ 0 → (s.ivv = true ∨ a = true) →
      exec (.cbcDec a) s = .next (endedErr (encode (.cbcDec a)) .align { s with blkidx := 0 })) ∧
    (s.ibuf = [] → exec (.ecbDec a) s = .next (endedErr (encode (.ecbDec a)) .pad { s with blkidx := 0 })) ∧
    (s.ibuf = [] → s.ivv = true →
      exec (.cbcDec a) s = .next (endedErr (encode (.cbcDec a)) .pad { s with fb := s.iv, blkidx := 0 })) ∧
    errWord .align (encode (.ecbDec a)) = 0x1106 ∧ errWord .align (encode (.cbcDec a)) = 0x1306

/-- R178: with AUTOIV and no IV loaded, the checks passed, sixteen generated bytes become the IV and the command goes on with
it; when the entropy hash fails, E_HASH, with IV and IVV unchanged and the entropy state as far as the bits had changed it. On
every platform. -/
def Obligations.AutoIvGeneratesTheIv : Prop :=
  ∀ (P : Platform) (m : Mode) (d : Dir) (s : State), s.klen ≠ .none → m ≠ .ecb → s.ivv = false →
    (m = .cbc → d = .dec → s.ibuf.length % 16 = 0) →
    (∀ v e, entBytes P 16 s.ent = .got v e →
      v.length = 16 ∧
      perform P (Instr.ofCipher m d true) s =
        perform P (Instr.ofCipher m d true) { s with ent := e, iv := toReg 16 v, ivv := true }) ∧
    (∀ e, entBytes P 16 s.ent = .failed e →
      perform P (Instr.ofCipher m d true) s =
        endedErr (encode (Instr.ofCipher m d true)) .hash { s with ent := e, blkidx := 0 })

/-- R76, R129: AUTOIV is ignored in ECB and whenever an IV is loaded: the two forms of a command differ only in CUR. -/
def Obligations.AutoIvIsIgnoredWhenNotNeeded : Prop :=
  ∀ (P : Platform) (m : Mode) (d : Dir) (s : State), (m = .ecb ∨ s.ivv = true) →
    perform P (Instr.ofCipher m d true) s =
      { perform P (Instr.ofCipher m d false) s with cur := encode (Instr.ofCipher m d true) }

/-! ## The block modes (R125): each command's next state, for every input, with the primitive's FAIL answers included -/

/-- R128: ECB.ENC, `C_i = E(P_i)` on the padded input. -/
def Obligations.EcbEncResult : Prop :=
  ∀ (a : Bool) (s : State), s.klen ≠ .none →
    exec (.ecbEnc a) s = .next (cipherEnd (encode (.ecbEnc a))
      (blockLoop
        (fun fb u => (Config.platform.enc s.keyInForce (toReg 16 u)).map fun c => (c.val, fb))
        s.fb (unitsOf (s.ibuf.length / 16 + 1) (pad s.ibuf))) s)

/-- R132: ECB.DEC, `P_i = D(C_i)`, then unpadded. -/
def Obligations.EcbDecResult : Prop :=
  ∀ (a : Bool) (s : State), s.klen ≠ .none → s.ibuf.length % 16 = 0 →
    exec (.ecbDec a) s = .next (unpaddedEnd (encode (.ecbDec a))
      (blockLoop
        (fun fb u => (Config.platform.dec s.keyInForce (toReg 16 u)).map fun p => (p.val, fb))
        s.fb (unitsOf (s.ibuf.length / 16) s.ibuf)) s)

/-- R136: CBC.ENC, `C_i = E(P_i XOR C_{i-1})`, `C_{-1} = IV`, on the padded input. -/
def Obligations.CbcEncResult : Prop :=
  ∀ (a : Bool) (s : State), s.klen ≠ .none → s.ivv = true →
    exec (.cbcEnc a) s = .next (cipherEnd (encode (.cbcEnc a))
      (blockLoop
        (fun fb u => (Config.platform.enc s.keyInForce (xorBlock (toReg 16 u) fb)).map fun c => (c.val, c))
        s.iv (unitsOf (s.ibuf.length / 16 + 1) (pad s.ibuf))) s)

/-- R140: CBC.DEC, `P_i = D(C_i) XOR C_{i-1}`, then unpadded. -/
def Obligations.CbcDecResult : Prop :=
  ∀ (a : Bool) (s : State), s.klen ≠ .none → s.ivv = true → s.ibuf.length % 16 = 0 →
    exec (.cbcDec a) s = .next (unpaddedEnd (encode (.cbcDec a))
      (blockLoop
        (fun fb u => (Config.platform.dec s.keyInForce (toReg 16 u)).map fun t => ((xorBlock t fb).val, toReg 16 u))
        s.iv (unitsOf (s.ibuf.length / 16) s.ibuf)) s)

/-- R151: CFB.ENC, `C_i = P_i XOR E(C_{i-1})`; a final unit shorter than a block takes the first keystream bytes and leaves FB
unchanged. -/
def Obligations.CfbEncResult : Prop :=
  ∀ (a : Bool) (s : State), s.klen ≠ .none → s.ivv = true →
    exec (.cfbEnc a) s = .next (cipherEnd (encode (.cfbEnc a))
      (blockLoop
        (fun fb u => (Config.platform.enc s.keyInForce fb).map fun k =>
          (xorBytes u (k.val.take u.length), if u.length = 16 then toReg 16 (xorBytes u k.val) else fb))
        s.iv (unitsOf ((s.ibuf.length + 15) / 16) s.ibuf)) s)

/-- R152: CFB.DEC, `P_i = C_i XOR E(C_{i-1})`, fed with the ciphertext received. -/
def Obligations.CfbDecResult : Prop :=
  ∀ (a : Bool) (s : State), s.klen ≠ .none → s.ivv = true →
    exec (.cfbDec a) s = .next (cipherEnd (encode (.cfbDec a))
      (blockLoop
        (fun fb u => (Config.platform.enc s.keyInForce fb).map fun k =>
          (xorBytes u (k.val.take u.length), if u.length = 16 then toReg 16 u else fb))
        s.iv (unitsOf ((s.ibuf.length + 15) / 16) s.ibuf)) s)

/-- R153, R154: OFB.ENC and OFB.DEC, `K_i = E(K_{i-1})`, `K_{-1} = IV`; FB takes every keystream block whole. -/
def Obligations.OfbResult : Prop :=
  ∀ (i : Instr) (a : Bool) (s : State), (i = .ofbEnc a ∨ i = .ofbDec a) → s.klen ≠ .none → s.ivv = true →
    exec i s = .next (cipherEnd (encode i)
      (blockLoop
        (fun fb u => (Config.platform.enc s.keyInForce fb).map fun k => (xorBytes u (k.val.take u.length), k))
        s.iv (unitsOf ((s.ibuf.length + 15) / 16) s.ibuf)) s)

/-- R155, R156: CTR.ENC and CTR.DEC, `K_i = E(IV + i mod 2^128)`; FB is the counter, read big-endian and increased by one for
every block. -/
def Obligations.CtrResult : Prop :=
  ∀ (i : Instr) (a : Bool) (s : State), (i = .ctrEnc a ∨ i = .ctrDec a) → s.klen ≠ .none → s.ivv = true →
    exec i s = .next (cipherEnd (encode i)
      (blockLoop
        (fun fb u => (Config.platform.enc s.keyInForce fb).map fun k =>
          (xorBytes u (k.val.take u.length), toBE128 ((be128 fb + 1) % 2 ^ 128)))
        s.iv (unitsOf ((s.ibuf.length + 15) / 16) s.ibuf)) s)

/-- R155, R157: after a CTR command that ended normally, FB = IV + NBLK mod 2^128 and BLKIDX = NBLK, on every platform. -/
def Obligations.CtrCounterAfterTheCommand : Prop :=
  ∀ (P : Platform) (i : Instr) (a : Bool) (s : State), (i = .ctrEnc a ∨ i = .ctrDec a) → s.ivv = true →
    (perform P i s).err = false →
    (perform P i s).blkidx = (s.ibuf.length + 15) / 16 ∧
    (perform P i s).fb = toBE128 ((be128 s.iv + (s.ibuf.length + 15) / 16) % 2 ^ 128)

/-- R154, R156: OFB.DEC is OFB.ENC and CTR.DEC is CTR.ENC but for CUR and, on an error, ERRCODE.OPC, for every state and
input. -/
def Obligations.StreamDirectionsAgree : Prop :=
  ∀ (P : Platform) (a : Bool) (s : State),
    (∃ e, perform P (.ofbDec a) s = { perform P (.ofbEnc a) s with cur := encode (.ofbDec a), errcode := e } ∧
      e.toNat = if (perform P (.ofbEnc a) s).err then 0x1700 + (perform P (.ofbEnc a) s).errcode.toNat % 256 else 0) ∧
    (∃ e, perform P (.ctrDec a) s = { perform P (.ctrEnc a) s with cur := encode (.ctrDec a), errcode := e } ∧
      e.toNat = if (perform P (.ctrEnc a) s).err then 0x1900 + (perform P (.ctrEnc a) s).errcode.toNat % 256 else 0)

/-- R129: an ECB command reads neither IV, IVV nor FB and writes none of them: other values of them change nothing but
themselves; AUTOIV has no effect (only CUR differs); and the entropy generator is not called. -/
def Obligations.EcbReadsNoIvAndNoFeedback : Prop :=
  ∀ (P : Platform) (d : Dir) (a : Bool) (s : State) (v : Block) (b : Bool) (f : Block),
    perform P (Instr.ofCipher .ecb d a) { s with iv := v, ivv := b, fb := f } =
      { perform P (Instr.ofCipher .ecb d a) s with iv := v, ivv := b, fb := f } ∧
    perform P (Instr.ofCipher .ecb d true) s =
      { perform P (Instr.ofCipher .ecb d false) s with cur := encode (Instr.ofCipher .ecb d true) } ∧
    (perform P (Instr.ofCipher .ecb d a) s).ent = s.ent

/-- R161, R162: the OFB and CTR keystream does not depend on the data: the XOR of two outputs of one length is the XOR of the
two inputs. -/
def Obligations.KeystreamDoesNotDependOnTheData : Prop :=
  ∀ (P : Platform) (m : Mode) (d : Dir) (a : Bool) (s : State) (b : Bytes), (m = .ofb ∨ m = .ctr) → s.ivv = true →
    b.length = s.ibuf.length → (perform P (Instr.ofCipher m d a) s).err = false →
    (perform P (Instr.ofCipher m d a) { s with ibuf := b }).err = false ∧
    xorBytes (perform P (Instr.ofCipher m d a) s).obuf (perform P (Instr.ofCipher m d a) { s with ibuf := b }).obuf =
      xorBytes s.ibuf b

/-! ## Padding (R126, R127) and lengths (R142, R150) -/

/-- R126: PAD appends between 1 and 16 bytes, each equal to their number, and gives `16 * (floor(L/16) + 1)` bytes. -/
def Obligations.PadAppendsItsLength : Prop :=
  ∀ m : Bytes, ∃ n, 1 ≤ n ∧ n ≤ 16 ∧ pad m = m ++ List.replicate n (BitVec.ofNat 8 n) ∧
    (pad m).length = 16 * (m.length / 16 + 1)

/-- R127: on a sequence whose length is a multiple of 16, UNPAD succeeds exactly on the sequences that end in `p` bytes equal to
`p`, `1 <= p <= 16`, and strips those. -/
def Obligations.UnpadStripsExactlyValidPadding : Prop :=
  ∀ m r : Bytes, m.length % 16 = 0 →
    (unpad m = some r ↔ ∃ p, 1 ≤ p ∧ p ≤ 16 ∧ m = r ++ List.replicate p (BitVec.ofNat 8 p))

/-- R142, R150: the output length and BLKIDX of a cipher command that ended normally. -/
def Obligations.OutputLengths : Prop :=
  ∀ (P : Platform) (m : Mode) (d : Dir) (a : Bool) (s : State), (perform P (Instr.ofCipher m d a) s).err = false →
    let t := perform P (Instr.ofCipher m d a) s
    (padded m = true → d = .enc → t.obuf.length = 16 * (s.ibuf.length / 16 + 1) ∧ t.blkidx = s.ibuf.length / 16 + 1) ∧
    (padded m = true → d = .dec → t.obuf.length + 1 ≤ s.ibuf.length ∧ s.ibuf.length ≤ t.obuf.length + 16 ∧
      t.blkidx = s.ibuf.length / 16) ∧
    (padded m = false → t.obuf.length = s.ibuf.length ∧ t.blkidx = (s.ibuf.length + 15) / 16)

/-! ## Round trips (R143, R158, R159) and error propagation (R141) -/

/-- R143: with BLK_INV and BLK_NOFAIL, in ECB and CBC decrypting the ciphertext under the same key and IV gives the plaintext,
for every plaintext and every valid key; encrypting a decryption that did not fail gives the ciphertext; and UNPAD undoes PAD. -/
def Obligations.PaddedRoundTrip : Prop :=
  (∀ (P : Platform) (m : Mode) (a b : Bool) (s : State), P.BlkInv → P.BlkNoFail → padded m = true → s.klen ≠ .none →
    (m = .ecb ∨ s.ivv = true) →
    (let c := perform P (Instr.ofCipher m .enc a) s
     let t := perform P (Instr.ofCipher m .dec b) { c with ibuf := c.obuf }
     c.err = false ∧ t.err = false ∧ t.obuf = s.ibuf) ∧
    (let c := perform P (Instr.ofCipher m .dec a) s
     let t := perform P (Instr.ofCipher m .enc b) { c with ibuf := c.obuf }
     c.err = false → t.err = false ∧ t.obuf = s.ibuf)) ∧
  (∀ m : Bytes, unpad (pad m) = some m)

/-- R159: with BLK_NOFAIL alone, in CFB, OFB and CTR the two directions undo each other in either order, for every input; and an
empty input gives an empty output on every platform, so without a call of `E`. -/
def Obligations.StreamRoundTrip : Prop :=
  ∀ (P : Platform) (m : Mode) (a b : Bool) (s : State), padded m = false → s.klen ≠ .none → s.ivv = true →
    (P.BlkNoFail →
      (let c := perform P (Instr.ofCipher m .enc a) s
       let t := perform P (Instr.ofCipher m .dec b) { c with ibuf := c.obuf }
       c.err = false ∧ t.err = false ∧ t.obuf = s.ibuf) ∧
      (let c := perform P (Instr.ofCipher m .dec a) s
       let t := perform P (Instr.ofCipher m .enc b) { c with ibuf := c.obuf }
       c.err = false ∧ t.err = false ∧ t.obuf = s.ibuf)) ∧
    (s.ibuf = [] → (perform P (Instr.ofCipher m .enc a) s).err = false ∧ (perform P (Instr.ofCipher m .enc a) s).obuf = [])

/-- R158: OFB and CTR are self-inverse, in any combination of directions, whenever the first command ended normally. -/
def Obligations.OfbAndCtrAreSelfInverse : Prop :=
  ∀ (P : Platform) (m : Mode) (d d' : Dir) (a b : Bool) (s : State), (m = .ofb ∨ m = .ctr) → s.ivv = true →
    let c := perform P (Instr.ofCipher m d a) s
    let t := perform P (Instr.ofCipher m d' b) { c with ibuf := c.obuf }
    c.err = false → t.err = false ∧ t.obuf = s.ibuf

/-- R141: under a loaded key, when one ciphertext block of a CBC decryption is replaced by itself XOR `e`, the next plaintext block changes by exactly
`e`, and no block but these two changes (the decrypted bytes before unpadding, in FINAL). -/
def Obligations.CbcTamperSpansTwoBlocks : Prop :=
  ∀ (P : Platform) (s : State) (i j : Nat) (e : Block), P.BlkNoFail → s.klen ≠ .none → s.phase = .run → s.blkidx = 0 → s.obuf = [] →
    s.ibuf.length % 16 = 0 → i < s.ibuf.length / 16 → j < s.ibuf.length / 16 → j ≠ i →
    let p := (runBlocks P .cbc .dec stepCbcDec s).obuf
    let p' := (runBlocks P .cbc .dec stepCbcDec { s with ibuf := tamperBlock s.ibuf i e }).obuf
    blockAt p' j = if j = i + 1 then xorBytes (blockAt p j) e.val else blockAt p j

/-- R163: in a stream mode, when `E` under the key in force is injective and the input has at least 16 bytes, different IVs give
different first output blocks. -/
def Obligations.DifferentIvsGiveDifferentFirstBlocks : Prop :=
  ∀ (P : Platform) (m : Mode) (a : Bool) (s : State) (v : Block), P.BlkInv → padded m = false → s.klen ≠ .none →
    s.ivv = true → 16 ≤ s.ibuf.length → v ≠ s.iv →
    (perform P (Instr.ofCipher m .enc a) s).err = false → (perform P (Instr.ofCipher m .enc a) { s with iv := v }).err = false →
    (perform P (Instr.ofCipher m .enc a) s).obuf.take 16 ≠ (perform P (Instr.ofCipher m .enc a) { s with iv := v }).obuf.take 16

/-! ## The key-derivation engine -/

/-- R114, R119: every byte of KXF, as the rule's formula on integers gives it. -/
def Obligations.KxfBytes : Prop :=
  ∀ (s : ByteReg 64) (i j : Nat), j < 64 →
    ((kxf s i).val.getD j 0).toNat =
      ((((s.val.getD j 0).toNat <<< 3) ||| ((s.val.getD j 0).toNat >>> 5)) &&& 0xFF) ^^^ ((i >>> (j % 8)) &&& 0xFF)

/-- R112, R113, R115, R116: KDF hashes IBUF once, then 100,000 times hashes and transforms, and returns the first 16 bytes;
with SHA-512 behind H512 it never fails (R117). -/
def Obligations.KdfResult : Prop :=
  ∀ s : State, ∃ st : ByteReg 64, kdfState Config.platform s.ibuf 100000 = some st ∧
    exec .kdf s = .next (endedOk 0x00000020
      { s with kst := st, krnd := 100000, obuf := st.val.take 16, blkidx := 0 })

/-- R117: when a hash fails, E_HASH; KST and KRND keep the values they had when the failing call was made. On the machine's own
platform, where H512 is SHA-512, KDF never fails. -/
def Obligations.KdfHashFailure : Prop :=
  ∀ (P : Platform) (s : State),
    (P.h512 s.ibuf = none → perform P .kdf s = endedErr 0x00000020 .hash { s with blkidx := 0 }) ∧
    (∀ (i : Nat) (st : ByteReg 64), i < 100000 → kdfState P s.ibuf i = some st → P.h512 st.val = none →
      perform P .kdf s = endedErr 0x00000020 .hash { s with kst := st, krnd := i, blkidx := 0 }) ∧
    (perform Config.platform .kdf s).err = false

/-! ## The entropy generator -/

/-- R98, R100: RNG puts the next `n` bytes of the generator's stream in OBUF and changes nothing else but the entropy state; when
the entropy hash fails, E_HASH, the entropy state kept as far as the bits had changed it. -/
def Obligations.RngResult : Prop :=
  ∀ (n : Nat) (s : State), exec (.rng n) s = .next (match entBytes Config.platform n s.ent with
    | .got bs e => endedOk (encode (.rng n)) { s with ent := e, obuf := bs, blkidx := 0 }
    | .failed e => endedErr (encode (.rng n)) .hash { s with ent := e, blkidx := 0 })

/-- R92 to R94: one bit. With an unused digest byte it is bit 0 of that byte; with the digest used up it is preceded by a
resampling if one is due and by one hash call, which advances the counter by one, and is bit 0 of the new digest's first byte. If
the hash fails only the resampling is kept (R100). -/
def Obligations.OneGeneratedBit : Prop :=
  ∀ (P : Platform) (e : Entropy),
    (e.edpos ≠ P.le →
      entBit P e = .got ((e.edig.getD e.edpos 0).getLsbD 0) { e with edpos := e.edpos + 1, ebits := e.ebits + 1 }) ∧
    (e.edpos = P.le →
      let due := e.esv = false ∨ 1000 ≤ e.ebits
      let mem := if due then (P.envMem e.envReads).getD P.fallbackMem else e.emem
      let ts := if due then (P.envTs e.envReads).getD P.fallbackTs else e.ets
      let bits := if due then 0 else e.ebits
      let reads := if due then e.envReads + 1 else e.envReads
      let esv := if due then true else e.esv
      (∀ d, P.edigest e.ecnt.toNat mem ts = some d →
        entBit P e = .got ((d.val.getD 0 0).getLsbD 0)
          { ecnt := e.ecnt + 1, emem := mem, ets := ts, esv := esv, ebits := bits + 1, edig := d.val, edpos := 1,
            envReads := reads }) ∧
      (P.edigest e.ecnt.toNat mem ts = none →
        entBit P e = .failed { e with emem := mem, ets := ts, esv := esv, ebits := bits, envReads := reads }))

/-- R95, R96: a generated byte is eight bits drawn one after the other, the first drawn as bit 7 and the last as bit 0, hash calls
between them or not; when one of the eight draws fails, so does the byte, with what that draw left (R100). In particular, a byte
made of eight unused digest bytes takes bit 0 of each in index order. `e k` and `b k` are the state before draw `k` and its bit. -/
def Obligations.ByteFromUnusedDigestBytes : Prop :=
  (∀ (P : Platform) (e : Nat → Entropy) (b : Nat → Bool), (∀ k, k < 8 → entBit P (e k) = .got (b k) (e (k + 1))) →
    ∃ x, entByte P (e 0) = .got x (e 8) ∧ ∀ k, k < 8 → x.getLsbD (7 - k) = b k) ∧
  (∀ (P : Platform) (e : Nat → Entropy) (b : Nat → Bool) (n : Nat) (e' : Entropy), n < 8 →
    (∀ k, k < n → entBit P (e k) = .got (b k) (e (k + 1))) → entBit P (e n) = .failed e' → entByte P (e 0) = .failed e') ∧
  (∀ (P : Platform) (e : Entropy), e.edpos + 8 ≤ P.le →
    ∃ x, entByte P e = .got x { e with edpos := e.edpos + 8, ebits := e.ebits + 8 } ∧
      ∀ k, k < 8 → x.getLsbD (7 - k) = (e.edig.getD (e.edpos + k) 0).getLsbD 0)

/-- R97: `n` bytes consume exactly `8n` bits; the number of hash calls, by which ECNT advances, is `ceil((8n - a) / LE)` when
`8n > a` and 0 otherwise, `a` the unused digest bytes at the start. -/
def Obligations.HashCallsOfGeneratedBytes : Prop :=
  ∀ (P : Platform) (n : Nat) (e e' : Entropy) (bs : Bytes), e.edpos ≤ P.le → entBytes P n e = .got bs e' →
    let a := P.le - e.edpos
    let calls := if a < 8 * n then (8 * n - a + P.le - 1) / P.le else 0
    bs.length = n ∧ e'.ecnt = e.ecnt + BitVec.ofNat 64 calls ∧ e'.edpos ≤ P.le ∧
      a + calls * P.le = 8 * n + (P.le - e'.edpos)

/-- R99: the stream is continuous across commands: two RNG commands give the bytes and the entropy state of one. -/
def Obligations.RngStreamIsContinuous : Prop :=
  ∀ (P : Platform) (m n : Nat) (s : State), (perform P (.rng (m + n)) s).err = false →
    let t := perform P (.rng m) s
    t.err = false ∧ (perform P (.rng n) t).err = false ∧
    t.obuf ++ (perform P (.rng n) t).obuf = (perform P (.rng (m + n)) s).obuf ∧
    (perform P (.rng n) t).ent = (perform P (.rng (m + n)) s).ent
end

