-- ==== Sys2Proof/Laws/Bytes.lean ====
section
/-! SUPPORT. Lemmas about byte sequences: XOR, slices and units, padding, the big-endian counter. -/

namespace Sys2Proof.Machine

/-! ## XOR (R19) -/

@[simp] theorem xorBytes_length (a b : Bytes) : (xorBytes a b).length = min a.length b.length := by
  simp [xorBytes]

/-- XOR with the same bytes twice gives the sequence back. -/
theorem xorBytes_cancel : ∀ {a b : Bytes}, a.length ≤ b.length → xorBytes (xorBytes a b) b = a
  | [], _, _ => by simp [xorBytes]
  | x :: a, y :: b, h => by
    have ih : xorBytes (xorBytes a b) b = a := xorBytes_cancel (by simpa using h)
    simp only [xorBytes] at ih
    simp [xorBytes, ih]

/-- XOR of two sequences masked alike cancels the mask. -/
theorem xorBytes_mask : ∀ {a b k : Bytes}, a.length ≤ k.length → b.length ≤ k.length →
    xorBytes (xorBytes a k) (xorBytes b k) = xorBytes a b
  | [], _, _, _, _ => by simp [xorBytes]
  | _ :: _, [], _, _, _ => by simp [xorBytes]
  | x :: a, y :: b, z :: k, ha, hb => by
    have ih : xorBytes (xorBytes a k) (xorBytes b k) = xorBytes a b := xorBytes_mask (by simpa using ha) (by simpa using hb)
    simp only [xorBytes] at ih
    have hz : x ^^^ z ^^^ (y ^^^ z) = x ^^^ y := by
      rw [BitVec.xor_comm y z, ← BitVec.xor_assoc, BitVec.xor_assoc x z z]
      simp
    simp [xorBytes, ih, hz]

/-- XOR reads no more of the second sequence than the first one is long. -/
theorem xorBytes_take (a b : Bytes) : xorBytes a (b.take a.length) = xorBytes a b := by
  induction a generalizing b with
  | nil => simp [xorBytes]
  | cons x a ih =>
    cases b with
    | nil => simp [xorBytes]
    | cons y b =>
      have := ih b
      simp only [xorBytes] at this
      simp [xorBytes, this]

theorem xorBytes_append {a b : Bytes} (c d : Bytes) (h : a.length = b.length) :
    xorBytes (a ++ c) (b ++ d) = xorBytes a b ++ xorBytes c d := by
  simp [xorBytes, List.zipWith_append h]

theorem xorBlock_val (a b : Block) : (xorBlock a b).val = xorBytes a.val b.val := rfl

theorem xorBlock_cancel (a b : Block) : xorBlock (xorBlock a b) b = a :=
  Subtype.ext (xorBytes_cancel (by simp [a.property, b.property]))

/-! ## The key in force (R21) -/

/-- With a key loaded, the key in force has one of the three legal lengths: the only keys `E` and `D` are called with. -/
theorem keyInForce_length {s : State} (h : s.klen ≠ .none) : s.keyInForce.length ∈ [16, 24, 32] := by
  have hk : s.key.val.length = 32 := s.key.property
  cases hl : s.klen <;> simp_all [State.keyInForce, KeyLen.toNat]

/-! ## Registers from sequences, slices, units (R19, R150, R186) -/

theorem toReg_val {n : Nat} {b : Bytes} (h : b.length = n) : (toReg n b).val = b := by
  subst h
  simp [toReg]

@[simp] theorem toReg_of_reg {n : Nat} (r : ByteReg n) : toReg n r.val = r := Subtype.ext (toReg_val r.property)

@[simp] theorem memRead_length (b : Bytes) (off n : Nat) : (memRead b off n).length = min n (b.length - off) := by
  simp [memRead]

theorem streamUnit_eq (b : Bytes) (i : Nat) : streamUnit b i = memRead b (16 * i) 16 := by
  simp only [streamUnit, memRead]
  rcases Nat.le_total 16 (b.length - 16 * i) with h | h
  · rw [Nat.min_eq_left h]
  · rw [Nat.min_eq_right h, List.take_of_length_le (by simp), List.take_of_length_le (by simpa using h)]

@[simp] theorem unitsOf_length (n : Nat) (b : Bytes) : (unitsOf n b).length = n := by
  induction n generalizing b with
  | zero => rfl
  | succ n ih => simp [unitsOf, ih]

/-- Unit `i` is the slice at `16i`. -/
theorem unitsOf_get {n i : Nat} (b : Bytes) (h : i < n) : (unitsOf n b)[i]? = some (memRead b (16 * i) 16) := by
  induction n generalizing b i with
  | zero => omega
  | succ n ih =>
    cases i with
    | zero => simp [unitsOf, memRead]
    | succ i =>
      rw [unitsOf, List.getElem?_cons_succ, ih _ (by omega)]
      simp only [memRead, List.drop_drop]
      congr 3
      omega

/-- The units together are the sequence, when there are enough of them. -/
theorem unitsOf_flatten {n : Nat} {b : Bytes} (h : b.length ≤ 16 * n) : (unitsOf n b).flatten = b := by
  induction n generalizing b with
  | zero => simp_all [unitsOf]
  | succ n ih =>
    rw [unitsOf, List.flatten_cons, ih (by simp; omega), List.take_append_drop]

/-! ## Padding (R126) -/

theorem pad_eq (m : Bytes) :
    pad m = m ++ List.replicate (16 - m.length % 16) (BitVec.ofNat 8 (16 - m.length % 16)) := rfl

@[simp] theorem pad_length (m : Bytes) : (pad m).length = 16 * (m.length / 16 + 1) := by
  simp [pad]
  omega

/-! ## The counter (R55, R157) -/

/-- `k` bytes of a number, big-endian. -/
def bigEndian (k n : Nat) : Bytes := (List.range k).map fun j => BitVec.ofNat 8 (n / 256 ^ (k - 1 - j))

theorem bigEndian_succ (k n : Nat) : bigEndian (k + 1) n = bigEndian k (n / 256) ++ [BitVec.ofNat 8 n] := by
  simp only [bigEndian, List.range_succ, List.map_append, List.map_cons, List.map_nil]
  congr 1
  · apply List.map_congr_left
    intro j hj
    have hj' : j < k := List.mem_range.mp hj
    congr 1
    rw [Nat.div_div_eq_div_mul, ← Nat.pow_succ']
    congr 2
    omega
  · simp

/-- The number a big-endian byte sequence stands for. -/
def bigNat (b : Bytes) : Nat := b.foldl (fun v x => v * 256 + x.toNat) 0

theorem bigNat_append (b : Bytes) (x : Byte) : bigNat (b ++ [x]) = bigNat b * 256 + x.toNat := by
  simp [bigNat]

theorem bigNat_bigEndian (k n : Nat) : bigNat (bigEndian k n) = n % 256 ^ k := by
  induction k generalizing n with
  | zero => simp [bigNat, bigEndian, Nat.mod_one]
  | succ k ih =>
    rw [bigEndian_succ, bigNat_append, ih, Nat.pow_succ', Nat.mod_mul, BitVec.toNat_ofNat]
    omega

theorem bigEndian_bigNat (b : Bytes) : bigEndian b.length (bigNat b) = b := by
  induction b using List.reverseRecOn with
  | nil => rfl
  | append_singleton b x ih =>
    have h1 : (bigNat b * 256 + x.toNat) / 256 = bigNat b := by
      have := x.isLt
      omega
    have h2 : BitVec.ofNat 8 (bigNat b * 256 + x.toNat) = x := by
      apply BitVec.eq_of_toNat_eq
      have := x.isLt
      rw [BitVec.toNat_ofNat]
      omega
    rw [List.length_append, List.length_singleton, bigEndian_succ, bigNat_append, h1, h2, ih]

theorem bigNat_lt (b : Bytes) : bigNat b < 256 ^ b.length := by
  induction b using List.reverseRecOn with
  | nil => simp [bigNat]
  | append_singleton b x ih =>
    have := x.isLt
    rw [bigNat_append, List.length_append, List.length_singleton, Nat.pow_succ]
    omega

/-- `BE128` undoes `toBE128`, modulo 2^128. -/
theorem be128_toBE128 (n : Nat) : be128 (toBE128 n) = n % 2 ^ 128 := bigNat_bigEndian 16 n

/-- `toBE128` undoes `BE128`: a block is its number. -/
theorem toBE128_be128 (b : Block) : toBE128 (be128 b) = b := by
  apply Subtype.ext
  have := bigEndian_bigNat b.val
  rw [b.property] at this
  exact this

theorem be128_lt (b : Block) : be128 b < 2 ^ 128 := by
  have := bigNat_lt b.val
  rw [b.property] at this
  exact this

end Sys2Proof.Machine
end

