-- ==== Sys2Proof/Laws/State.lean ====
section
/-! SUPPORT. Each field of State after each shared update, one lemma per field, true by unfolding. -/

namespace Sys2Proof.Machine

@[simp] theorem issue_key (w : Word) (s : State) : (s.issue w).key = s.key := rfl
@[simp] theorem issue_klen (w : Word) (s : State) : (s.issue w).klen = s.klen := rfl
@[simp] theorem issue_iv (w : Word) (s : State) : (s.issue w).iv = s.iv := rfl
@[simp] theorem issue_ivv (w : Word) (s : State) : (s.issue w).ivv = s.ivv := rfl
@[simp] theorem issue_fb (w : Word) (s : State) : (s.issue w).fb = s.fb := rfl
@[simp] theorem issue_kst (w : Word) (s : State) : (s.issue w).kst = s.kst := rfl
@[simp] theorem issue_phase (w : Word) (s : State) : (s.issue w).phase = .check := rfl
@[simp] theorem issue_cur (w : Word) (s : State) : (s.issue w).cur = w := rfl
@[simp] theorem issue_blkidx (w : Word) (s : State) : (s.issue w).blkidx = 0 := rfl
@[simp] theorem issue_krnd (w : Word) (s : State) : (s.issue w).krnd = s.krnd := rfl
@[simp] theorem issue_busy (w : Word) (s : State) : (s.issue w).busy = true := rfl
@[simp] theorem issue_done (w : Word) (s : State) : (s.issue w).done = false := rfl
@[simp] theorem issue_err (w : Word) (s : State) : (s.issue w).err = false := rfl
@[simp] theorem issue_ovr (w : Word) (s : State) : (s.issue w).ovr = false := rfl
@[simp] theorem issue_errcode (w : Word) (s : State) : (s.issue w).errcode = 0 := rfl
@[simp] theorem issue_ibuf (w : Word) (s : State) : (s.issue w).ibuf = s.ibuf := rfl
@[simp] theorem issue_obuf (w : Word) (s : State) : (s.issue w).obuf = [] := rfl
@[simp] theorem issue_ent (w : Word) (s : State) : (s.issue w).ent = s.ent := rfl
@[simp] theorem issue_hostReads (w : Word) (s : State) : (s.issue w).hostReads = s.hostReads := rfl
@[simp] theorem issue_moves (w : Word) (s : State) : (s.issue w).moves = s.moves := rfl
@[simp] theorem issue_reply (w : Word) (s : State) : (s.issue w).reply = s.reply := rfl
@[simp] theorem issue_keyInForce (w : Word) (s : State) : (s.issue w).keyInForce = s.keyInForce := rfl

@[simp] theorem complete_key (s : State) : s.complete.key = s.key := rfl
@[simp] theorem complete_klen (s : State) : s.complete.klen = s.klen := rfl
@[simp] theorem complete_iv (s : State) : s.complete.iv = s.iv := rfl
@[simp] theorem complete_ivv (s : State) : s.complete.ivv = s.ivv := rfl
@[simp] theorem complete_fb (s : State) : s.complete.fb = s.fb := rfl
@[simp] theorem complete_kst (s : State) : s.complete.kst = s.kst := rfl
@[simp] theorem complete_phase (s : State) : s.complete.phase = .idle := rfl
@[simp] theorem complete_cur (s : State) : s.complete.cur = s.cur := rfl
@[simp] theorem complete_blkidx (s : State) : s.complete.blkidx = s.blkidx := rfl
@[simp] theorem complete_krnd (s : State) : s.complete.krnd = s.krnd := rfl
@[simp] theorem complete_busy (s : State) : s.complete.busy = false := rfl
@[simp] theorem complete_done (s : State) : s.complete.done = true := rfl
@[simp] theorem complete_err (s : State) : s.complete.err = s.err := rfl
@[simp] theorem complete_ovr (s : State) : s.complete.ovr = s.ovr := rfl
@[simp] theorem complete_errcode (s : State) : s.complete.errcode = s.errcode := rfl
@[simp] theorem complete_ibuf (s : State) : s.complete.ibuf = s.ibuf := rfl
@[simp] theorem complete_obuf (s : State) : s.complete.obuf = s.obuf := rfl
@[simp] theorem complete_ent (s : State) : s.complete.ent = s.ent := rfl
@[simp] theorem complete_hostReads (s : State) : s.complete.hostReads = s.hostReads := rfl
@[simp] theorem complete_moves (s : State) : s.complete.moves = s.moves := rfl
@[simp] theorem complete_reply (s : State) : s.complete.reply = s.reply := rfl
@[simp] theorem complete_keyInForce (s : State) : s.complete.keyInForce = s.keyInForce := rfl

@[simp] theorem raise_key (e : ErrCode) (s : State) : (s.raise e).key = s.key := rfl
@[simp] theorem raise_klen (e : ErrCode) (s : State) : (s.raise e).klen = s.klen := rfl
@[simp] theorem raise_iv (e : ErrCode) (s : State) : (s.raise e).iv = s.iv := rfl
@[simp] theorem raise_ivv (e : ErrCode) (s : State) : (s.raise e).ivv = s.ivv := rfl
@[simp] theorem raise_fb (e : ErrCode) (s : State) : (s.raise e).fb = s.fb := rfl
@[simp] theorem raise_kst (e : ErrCode) (s : State) : (s.raise e).kst = s.kst := rfl
@[simp] theorem raise_phase (e : ErrCode) (s : State) : (s.raise e).phase = .idle := rfl
@[simp] theorem raise_cur (e : ErrCode) (s : State) : (s.raise e).cur = s.cur := rfl
@[simp] theorem raise_blkidx (e : ErrCode) (s : State) : (s.raise e).blkidx = s.blkidx := rfl
@[simp] theorem raise_krnd (e : ErrCode) (s : State) : (s.raise e).krnd = s.krnd := rfl
@[simp] theorem raise_busy (e : ErrCode) (s : State) : (s.raise e).busy = false := rfl
@[simp] theorem raise_done (e : ErrCode) (s : State) : (s.raise e).done = true := rfl
@[simp] theorem raise_err (e : ErrCode) (s : State) : (s.raise e).err = true := rfl
@[simp] theorem raise_ovr (e : ErrCode) (s : State) : (s.raise e).ovr = s.ovr := rfl
@[simp] theorem raise_errcode (e : ErrCode) (s : State) : (s.raise e).errcode = errWord e s.cur := rfl
@[simp] theorem raise_ibuf (e : ErrCode) (s : State) : (s.raise e).ibuf = s.ibuf := rfl
@[simp] theorem raise_obuf (e : ErrCode) (s : State) : (s.raise e).obuf = [] := rfl
@[simp] theorem raise_ent (e : ErrCode) (s : State) : (s.raise e).ent = s.ent := rfl
@[simp] theorem raise_hostReads (e : ErrCode) (s : State) : (s.raise e).hostReads = s.hostReads := rfl
@[simp] theorem raise_moves (e : ErrCode) (s : State) : (s.raise e).moves = s.moves := rfl
@[simp] theorem raise_reply (e : ErrCode) (s : State) : (s.raise e).reply = s.reply := rfl
@[simp] theorem raise_keyInForce (e : ErrCode) (s : State) : (s.raise e).keyInForce = s.keyInForce := rfl

@[simp] theorem appendOut_key (v : Bytes) (s : State) : (s.appendOut v).key = s.key := rfl
@[simp] theorem appendOut_klen (v : Bytes) (s : State) : (s.appendOut v).klen = s.klen := rfl
@[simp] theorem appendOut_iv (v : Bytes) (s : State) : (s.appendOut v).iv = s.iv := rfl
@[simp] theorem appendOut_ivv (v : Bytes) (s : State) : (s.appendOut v).ivv = s.ivv := rfl
@[simp] theorem appendOut_fb (v : Bytes) (s : State) : (s.appendOut v).fb = s.fb := rfl
@[simp] theorem appendOut_kst (v : Bytes) (s : State) : (s.appendOut v).kst = s.kst := rfl
@[simp] theorem appendOut_phase (v : Bytes) (s : State) : (s.appendOut v).phase = s.phase := rfl
@[simp] theorem appendOut_cur (v : Bytes) (s : State) : (s.appendOut v).cur = s.cur := rfl
@[simp] theorem appendOut_blkidx (v : Bytes) (s : State) : (s.appendOut v).blkidx = s.blkidx := rfl
@[simp] theorem appendOut_krnd (v : Bytes) (s : State) : (s.appendOut v).krnd = s.krnd := rfl
@[simp] theorem appendOut_busy (v : Bytes) (s : State) : (s.appendOut v).busy = s.busy := rfl
@[simp] theorem appendOut_done (v : Bytes) (s : State) : (s.appendOut v).done = s.done := rfl
@[simp] theorem appendOut_err (v : Bytes) (s : State) : (s.appendOut v).err = s.err := rfl
@[simp] theorem appendOut_ovr (v : Bytes) (s : State) : (s.appendOut v).ovr = s.ovr := rfl
@[simp] theorem appendOut_errcode (v : Bytes) (s : State) : (s.appendOut v).errcode = s.errcode := rfl
@[simp] theorem appendOut_ibuf (v : Bytes) (s : State) : (s.appendOut v).ibuf = s.ibuf := rfl
@[simp] theorem appendOut_obuf (v : Bytes) (s : State) : (s.appendOut v).obuf = s.obuf ++ v := rfl
@[simp] theorem appendOut_ent (v : Bytes) (s : State) : (s.appendOut v).ent = s.ent := rfl
@[simp] theorem appendOut_hostReads (v : Bytes) (s : State) : (s.appendOut v).hostReads = s.hostReads := rfl
@[simp] theorem appendOut_moves (v : Bytes) (s : State) : (s.appendOut v).moves = s.moves := rfl
@[simp] theorem appendOut_reply (v : Bytes) (s : State) : (s.appendOut v).reply = s.reply := rfl
@[simp] theorem appendOut_keyInForce (v : Bytes) (s : State) : (s.appendOut v).keyInForce = s.keyInForce := rfl

@[simp] theorem enterRun_key (m : Mode) (s : State) : (enterRun m s).key = s.key := rfl
@[simp] theorem enterRun_klen (m : Mode) (s : State) : (enterRun m s).klen = s.klen := rfl
@[simp] theorem enterRun_iv (m : Mode) (s : State) : (enterRun m s).iv = s.iv := rfl
@[simp] theorem enterRun_ivv (m : Mode) (s : State) : (enterRun m s).ivv = s.ivv := rfl
@[simp] theorem enterRun_fb (m : Mode) (s : State) : (enterRun m s).fb = if needsIV m then s.iv else s.fb := rfl
@[simp] theorem enterRun_kst (m : Mode) (s : State) : (enterRun m s).kst = s.kst := rfl
@[simp] theorem enterRun_phase (m : Mode) (s : State) : (enterRun m s).phase = .run := rfl
@[simp] theorem enterRun_cur (m : Mode) (s : State) : (enterRun m s).cur = s.cur := rfl
@[simp] theorem enterRun_blkidx (m : Mode) (s : State) : (enterRun m s).blkidx = s.blkidx := rfl
@[simp] theorem enterRun_krnd (m : Mode) (s : State) : (enterRun m s).krnd = s.krnd := rfl
@[simp] theorem enterRun_busy (m : Mode) (s : State) : (enterRun m s).busy = s.busy := rfl
@[simp] theorem enterRun_done (m : Mode) (s : State) : (enterRun m s).done = s.done := rfl
@[simp] theorem enterRun_err (m : Mode) (s : State) : (enterRun m s).err = s.err := rfl
@[simp] theorem enterRun_ovr (m : Mode) (s : State) : (enterRun m s).ovr = s.ovr := rfl
@[simp] theorem enterRun_errcode (m : Mode) (s : State) : (enterRun m s).errcode = s.errcode := rfl
@[simp] theorem enterRun_ibuf (m : Mode) (s : State) : (enterRun m s).ibuf = s.ibuf := rfl
@[simp] theorem enterRun_obuf (m : Mode) (s : State) : (enterRun m s).obuf = s.obuf := rfl
@[simp] theorem enterRun_ent (m : Mode) (s : State) : (enterRun m s).ent = s.ent := rfl
@[simp] theorem enterRun_hostReads (m : Mode) (s : State) : (enterRun m s).hostReads = s.hostReads := rfl
@[simp] theorem enterRun_moves (m : Mode) (s : State) : (enterRun m s).moves = s.moves := rfl
@[simp] theorem enterRun_reply (m : Mode) (s : State) : (enterRun m s).reply = s.reply := rfl
@[simp] theorem enterRun_keyInForce (m : Mode) (s : State) : (enterRun m s).keyInForce = s.keyInForce := rfl

@[simp] theorem answer_key (r : Reply) (s : State) : (s.answer r).key = s.key := rfl
@[simp] theorem answer_klen (r : Reply) (s : State) : (s.answer r).klen = s.klen := rfl
@[simp] theorem answer_iv (r : Reply) (s : State) : (s.answer r).iv = s.iv := rfl
@[simp] theorem answer_ivv (r : Reply) (s : State) : (s.answer r).ivv = s.ivv := rfl
@[simp] theorem answer_fb (r : Reply) (s : State) : (s.answer r).fb = s.fb := rfl
@[simp] theorem answer_kst (r : Reply) (s : State) : (s.answer r).kst = s.kst := rfl
@[simp] theorem answer_phase (r : Reply) (s : State) : (s.answer r).phase = s.phase := rfl
@[simp] theorem answer_cur (r : Reply) (s : State) : (s.answer r).cur = s.cur := rfl
@[simp] theorem answer_blkidx (r : Reply) (s : State) : (s.answer r).blkidx = s.blkidx := rfl
@[simp] theorem answer_krnd (r : Reply) (s : State) : (s.answer r).krnd = s.krnd := rfl
@[simp] theorem answer_busy (r : Reply) (s : State) : (s.answer r).busy = s.busy := rfl
@[simp] theorem answer_done (r : Reply) (s : State) : (s.answer r).done = s.done := rfl
@[simp] theorem answer_err (r : Reply) (s : State) : (s.answer r).err = s.err := rfl
@[simp] theorem answer_ovr (r : Reply) (s : State) : (s.answer r).ovr = s.ovr := rfl
@[simp] theorem answer_errcode (r : Reply) (s : State) : (s.answer r).errcode = s.errcode := rfl
@[simp] theorem answer_ibuf (r : Reply) (s : State) : (s.answer r).ibuf = s.ibuf := rfl
@[simp] theorem answer_obuf (r : Reply) (s : State) : (s.answer r).obuf = s.obuf := rfl
@[simp] theorem answer_ent (r : Reply) (s : State) : (s.answer r).ent = s.ent := rfl
@[simp] theorem answer_hostReads (r : Reply) (s : State) : (s.answer r).hostReads = if s.busy then s.hostReads + 1 else s.hostReads := rfl
@[simp] theorem answer_moves (r : Reply) (s : State) : (s.answer r).moves = s.moves := rfl
@[simp] theorem answer_reply (r : Reply) (s : State) : (s.answer r).reply = some r := rfl
@[simp] theorem answer_keyInForce (r : Reply) (s : State) : (s.answer r).keyInForce = s.keyInForce := rfl

@[simp] theorem endedOk_key (w : Word) (s : State) : (endedOk w s).key = s.key := rfl
@[simp] theorem endedOk_klen (w : Word) (s : State) : (endedOk w s).klen = s.klen := rfl
@[simp] theorem endedOk_iv (w : Word) (s : State) : (endedOk w s).iv = s.iv := rfl
@[simp] theorem endedOk_ivv (w : Word) (s : State) : (endedOk w s).ivv = s.ivv := rfl
@[simp] theorem endedOk_fb (w : Word) (s : State) : (endedOk w s).fb = s.fb := rfl
@[simp] theorem endedOk_kst (w : Word) (s : State) : (endedOk w s).kst = s.kst := rfl
@[simp] theorem endedOk_phase (w : Word) (s : State) : (endedOk w s).phase = .idle := rfl
@[simp] theorem endedOk_cur (w : Word) (s : State) : (endedOk w s).cur = w := rfl
@[simp] theorem endedOk_blkidx (w : Word) (s : State) : (endedOk w s).blkidx = s.blkidx := rfl
@[simp] theorem endedOk_krnd (w : Word) (s : State) : (endedOk w s).krnd = s.krnd := rfl
@[simp] theorem endedOk_busy (w : Word) (s : State) : (endedOk w s).busy = false := rfl
@[simp] theorem endedOk_done (w : Word) (s : State) : (endedOk w s).done = true := rfl
@[simp] theorem endedOk_err (w : Word) (s : State) : (endedOk w s).err = false := rfl
@[simp] theorem endedOk_ovr (w : Word) (s : State) : (endedOk w s).ovr = false := rfl
@[simp] theorem endedOk_errcode (w : Word) (s : State) : (endedOk w s).errcode = 0 := rfl
@[simp] theorem endedOk_ibuf (w : Word) (s : State) : (endedOk w s).ibuf = s.ibuf := rfl
@[simp] theorem endedOk_obuf (w : Word) (s : State) : (endedOk w s).obuf = s.obuf := rfl
@[simp] theorem endedOk_ent (w : Word) (s : State) : (endedOk w s).ent = s.ent := rfl
@[simp] theorem endedOk_hostReads (w : Word) (s : State) : (endedOk w s).hostReads = s.hostReads := rfl
@[simp] theorem endedOk_moves (w : Word) (s : State) : (endedOk w s).moves = s.moves := rfl
@[simp] theorem endedOk_reply (w : Word) (s : State) : (endedOk w s).reply = s.reply := rfl
@[simp] theorem endedOk_keyInForce (w : Word) (s : State) : (endedOk w s).keyInForce = s.keyInForce := rfl

@[simp] theorem endedErr_key (w : Word) (e : ErrCode) (s : State) : (endedErr w e s).key = s.key := rfl
@[simp] theorem endedErr_klen (w : Word) (e : ErrCode) (s : State) : (endedErr w e s).klen = s.klen := rfl
@[simp] theorem endedErr_iv (w : Word) (e : ErrCode) (s : State) : (endedErr w e s).iv = s.iv := rfl
@[simp] theorem endedErr_ivv (w : Word) (e : ErrCode) (s : State) : (endedErr w e s).ivv = s.ivv := rfl
@[simp] theorem endedErr_fb (w : Word) (e : ErrCode) (s : State) : (endedErr w e s).fb = s.fb := rfl
@[simp] theorem endedErr_kst (w : Word) (e : ErrCode) (s : State) : (endedErr w e s).kst = s.kst := rfl
@[simp] theorem endedErr_phase (w : Word) (e : ErrCode) (s : State) : (endedErr w e s).phase = .idle := rfl
@[simp] theorem endedErr_cur (w : Word) (e : ErrCode) (s : State) : (endedErr w e s).cur = w := rfl
@[simp] theorem endedErr_blkidx (w : Word) (e : ErrCode) (s : State) : (endedErr w e s).blkidx = s.blkidx := rfl
@[simp] theorem endedErr_krnd (w : Word) (e : ErrCode) (s : State) : (endedErr w e s).krnd = s.krnd := rfl
@[simp] theorem endedErr_busy (w : Word) (e : ErrCode) (s : State) : (endedErr w e s).busy = false := rfl
@[simp] theorem endedErr_done (w : Word) (e : ErrCode) (s : State) : (endedErr w e s).done = true := rfl
@[simp] theorem endedErr_err (w : Word) (e : ErrCode) (s : State) : (endedErr w e s).err = true := rfl
@[simp] theorem endedErr_ovr (w : Word) (e : ErrCode) (s : State) : (endedErr w e s).ovr = false := rfl
@[simp] theorem endedErr_errcode (w : Word) (e : ErrCode) (s : State) : (endedErr w e s).errcode = errWord e w := rfl
@[simp] theorem endedErr_ibuf (w : Word) (e : ErrCode) (s : State) : (endedErr w e s).ibuf = s.ibuf := rfl
@[simp] theorem endedErr_obuf (w : Word) (e : ErrCode) (s : State) : (endedErr w e s).obuf = [] := rfl
@[simp] theorem endedErr_ent (w : Word) (e : ErrCode) (s : State) : (endedErr w e s).ent = s.ent := rfl
@[simp] theorem endedErr_hostReads (w : Word) (e : ErrCode) (s : State) : (endedErr w e s).hostReads = s.hostReads := rfl
@[simp] theorem endedErr_moves (w : Word) (e : ErrCode) (s : State) : (endedErr w e s).moves = s.moves := rfl
@[simp] theorem endedErr_reply (w : Word) (e : ErrCode) (s : State) : (endedErr w e s).reply = s.reply := rfl
@[simp] theorem endedErr_keyInForce (w : Word) (e : ErrCode) (s : State) : (endedErr w e s).keyInForce = s.keyInForce := rfl

end Sys2Proof.Machine
end

