-- ==== Sys2Proof/Laws/Ops.lean ====
section
/-! SUPPORT. What each shared operation can do, said once: staying in a phase, the checks, IV generation, the block loop, the
final step, the KDF and RNG steps, the host moves. -/

namespace Sys2Proof.Machine

/-! ## Staying in a phase -/

theorem whilePhase_of_ne {ph : Phase} {f : State → State} {n : Nat} {s : State} (h : s.phase ≠ ph) :
    whilePhase ph f n s = s := by
  cases n <;> simp [whilePhase, h]

theorem whilePhase_succ {ph : Phase} {f : State → State} {n : Nat} {s : State} (h : s.phase = ph) :
    whilePhase ph f (n + 1) s = whilePhase ph f n (f s) := by
  simp [whilePhase, h]

/-- A property kept by every step made in the phase is kept by the loop. -/
theorem whilePhase_keeps {ph : Phase} {f : State → State} (p : State → Prop)
    (hf : ∀ s, s.phase = ph → p s → p (f s)) : ∀ (n : Nat) (s : State), p s → p (whilePhase ph f n s)
  | 0, _, h => h
  | n + 1, s, h => by
    by_cases hp : s.phase = ph
    · rw [whilePhase_succ hp]
      exact whilePhase_keeps p hf n (f s) (hf s hp h)
    · rwa [whilePhase_of_ne hp]

/-- What no step made in the phase changes, the loop does not change. -/
theorem whilePhase_same {α : Type} {ph : Phase} {f : State → State} (g : State → α)
    (hf : ∀ s, s.phase = ph → g (f s) = g s) (n : Nat) (s : State) : g (whilePhase ph f n s) = g s :=
  whilePhase_keeps (fun t => g t = g s) (fun t hp h => (hf t hp).trans h) n s rfl

/-! ## The checks and the automatic IV (R177, R178) -/

/-- Everything CHECK of a cipher command can do. -/
theorem cipherCheck_cases (m : Mode) (d : Dir) (a : Bool) (s : State) :
    (s.klen = .none ∧ cipherCheck m d a s = s.raise .keylen) ∨
    (s.klen ≠ .none ∧ needsIV m = true ∧ s.ivv = false ∧ a = false ∧ cipherCheck m d a s = s.raise .ivmiss) ∨
    (s.klen ≠ .none ∧ padded m = true ∧ d = .dec ∧ s.ibuf.length % 16 ≠ 0 ∧
      (needsIV m = true → s.ivv = false → a = true) ∧ cipherCheck m d a s = s.raise .align) ∨
    (s.klen ≠ .none ∧ needsIV m = true ∧ s.ivv = false ∧ a = true ∧
      (padded m = true → d = .dec → s.ibuf.length % 16 = 0) ∧ cipherCheck m d a s = { s with phase := .ivgen }) ∨
    (s.klen ≠ .none ∧ (needsIV m = true → s.ivv = true) ∧
      (padded m = true → d = .dec → s.ibuf.length % 16 = 0) ∧ cipherCheck m d a s = enterRun m s) := by
  unfold cipherCheck
  by_cases h1 : s.klen = .none
  · simp [h1]
  · by_cases h3 : padded m = true ∧ d = .dec ∧ s.ibuf.length % 16 ≠ 0 <;> cases hn : needsIV m <;> cases hv : s.ivv <;>
      cases a <;> simp_all

/-- CHECK passes to RUN: a key, the IV if the mode needs one, and for a padded decryption whole blocks. -/
theorem cipherCheck_pass {m : Mode} {d : Dir} {a : Bool} {s : State} (hk : s.klen ≠ .none)
    (hv : needsIV m = true → s.ivv = true) (ha : padded m = true → d = .dec → s.ibuf.length % 16 = 0) :
    cipherCheck m d a s = enterRun m s := by
  unfold cipherCheck
  cases hn : needsIV m <;> cases hp : padded m <;> cases d <;> simp_all

/-- Everything IVGEN can do. -/
theorem ivgenStep_cases (P : Platform) (m : Mode) (s : State) :
    (∃ v e, entBytes P 16 s.ent = .got v e ∧
      ivgenStep P m s = enterRun m { s with ent := e, iv := toReg 16 v, ivv := true }) ∨
    (∃ e, entBytes P 16 s.ent = .failed e ∧ ivgenStep P m s = State.raise .hash { s with ent := e }) := by
  unfold ivgenStep
  cases h : entBytes P 16 s.ent with
  | got v e => exact .inl ⟨v, e, rfl, rfl⟩
  | failed e => exact .inr ⟨e, rfl, rfl⟩

/-! ## The block loop (R186, R219) and FINAL (R187) -/

/-- Everything a step in RUN can do. -/
theorem runStep_cases (P : Platform) (m : Mode) (d : Dir) (step : BlockStep) (s : State) :
    (s.blkidx < blockCount m d s.ibuf.length ∧ step P s s.blkidx = none ∧ runStep P m d step s = s.raise .blk) ∨
    (∃ out fb, s.blkidx < blockCount m d s.ibuf.length ∧ step P s s.blkidx = some (out, fb) ∧
      runStep P m d step s = State.appendOut out { s with fb := fb, blkidx := s.blkidx + 1 }) ∨
    (blockCount m d s.ibuf.length ≤ s.blkidx ∧ runStep P m d step s = { s with phase := .final }) := by
  unfold runStep
  by_cases h : s.blkidx < blockCount m d s.ibuf.length
  · cases hs : step P s s.blkidx with
    | none => exact .inl ⟨h, rfl, by simp [h]⟩
    | some r => exact .inr (.inl ⟨r.1, r.2, h, rfl, by simp [h]⟩)
  · exact .inr (.inr ⟨by omega, by simp [h]⟩)

/-- A STEP function follows `rule` on a key, an input and its units: what it does at block `i` is `rule` on FB and unit `i`. -/
def Follows (P : Platform) (step : BlockStep) (key ibuf : Bytes) (rule : Block → Bytes → Option (Bytes × Block))
    (us : List Bytes) : Prop :=
  ∀ (s : State) (i : Nat) (u : Bytes), s.keyInForce = key → s.ibuf = ibuf → us[i]? = some u → step P s i = rule s.fb u

/-- The loop of RUN from block BLKIDX on, over the units that are left, is `blockLoop`. -/
theorem whilePhase_runStep {P : Platform} {m : Mode} {d : Dir} {step : BlockStep} {key ibuf : Bytes}
    {rule : Block → Bytes → Option (Bytes × Block)} {us : List Bytes} (hf : Follows P step key ibuf rule us)
    (hn : us.length = blockCount m d ibuf.length) :
    ∀ (rest : List Bytes) (s : State), s.phase = .run → s.keyInForce = key → s.ibuf = ibuf → us.drop s.blkidx = rest →
      s.blkidx ≤ us.length →
      whilePhase .run (runStep P m d step) (rest.length + 1) s =
        (if (blockLoop rule s.fb rest).failed then
          State.raise .blk { s with fb := (blockLoop rule s.fb rest).fb, blkidx := s.blkidx + (blockLoop rule s.fb rest).blocks }
        else
          { s with fb := (blockLoop rule s.fb rest).fb, blkidx := s.blkidx + (blockLoop rule s.fb rest).blocks,
                   obuf := s.obuf ++ (blockLoop rule s.fb rest).out, phase := .final }) := by
  intro rest
  induction rest with
  | nil =>
    intro s hp _ hi hd hle
    have hlen : us.length ≤ s.blkidx := List.drop_eq_nil_iff.mp hd
    have hb : ¬ s.blkidx < blockCount m d s.ibuf.length := by rw [hi, ← hn]; omega
    simp [whilePhase, hp, runStep, hb, blockLoop]
  | cons u rest ih =>
    intro s hp hk hi hd hle
    have hlt : s.blkidx < us.length := by
      rcases Nat.lt_or_ge s.blkidx us.length with h | h
      · exact h
      · simp [List.drop_eq_nil_of_le h] at hd
    have hu : us[s.blkidx]? = some u := by
      have := congrArg List.head? hd
      simpa [List.head?_drop] using this
    have hd' : us.drop (s.blkidx + 1) = rest := by
      have := congrArg List.tail hd
      simpa [List.tail_drop] using this
    have hb : s.blkidx < blockCount m d s.ibuf.length := by rw [hi, ← hn]; exact hlt
    have hs : step P s s.blkidx = rule s.fb u := hf s s.blkidx u hk hi hu
    rw [List.length_cons, whilePhase_succ hp]
    cases hr : rule s.fb u with
    | none =>
      rw [whilePhase_of_ne] <;> simp [runStep, hb, hs, hr, blockLoop]
    | some r =>
      have hstep : runStep P m d step s = State.appendOut r.1 { s with fb := r.2, blkidx := s.blkidx + 1 } := by
        simp [runStep, hb, hs, hr]
      rw [hstep, ih (State.appendOut r.1 { s with fb := r.2, blkidx := s.blkidx + 1 }) hp hk hi hd' hlt]
      simp only [blockLoop, hr, State.appendOut, State.raise, List.append_assoc, Nat.add_assoc, Nat.add_comm 1]

/-- The whole block loop of a command in RUN at block 0 with OBUF empty. -/
theorem runBlocks_eq {P : Platform} {m : Mode} {d : Dir} {step : BlockStep} {rule : Block → Bytes → Option (Bytes × Block)}
    {us : List Bytes} {s : State} (hf : Follows P step s.keyInForce s.ibuf rule us)
    (hn : us.length = blockCount m d s.ibuf.length) (hp : s.phase = .run) (hb : s.blkidx = 0) (ho : s.obuf = []) :
    runBlocks P m d step s =
      (if (blockLoop rule s.fb us).failed then
        State.raise .blk { s with fb := (blockLoop rule s.fb us).fb, blkidx := (blockLoop rule s.fb us).blocks }
      else
        { s with fb := (blockLoop rule s.fb us).fb, blkidx := (blockLoop rule s.fb us).blocks,
                 obuf := (blockLoop rule s.fb us).out, phase := .final }) := by
  have h := whilePhase_runStep hf hn us s hp rfl rfl (by simp [hb]) (by simp [hb])
  simp only [hb, ho, Nat.zero_add, List.nil_append] at h
  rw [runBlocks, ← hn, h]
  rfl

/-- Everything FINAL can do. -/
theorem finalStep_cases (m : Mode) (d : Dir) (s : State) :
    (¬ (padded m = true ∧ d = .dec) ∧ finalStep m d s = s.complete) ∨
    (padded m = true ∧ d = .dec ∧ unpad s.obuf = none ∧ finalStep m d s = s.raise .pad) ∨
    (∃ out, padded m = true ∧ d = .dec ∧ unpad s.obuf = some out ∧ finalStep m d s = State.complete { s with obuf := out }) := by
  unfold finalStep
  by_cases h : padded m = true ∧ d = .dec
  · cases hu : unpad s.obuf <;> simp [h]
  · simp [h]

/-! ## KDF (R112 to R115) and RNG (R98) -/

/-- Everything KINIT can do. -/
theorem kinitStep_cases (P : Platform) (s : State) :
    (P.h512 s.ibuf = none ∧ kinitStep P s = s.raise .hash) ∨
    (∃ h, P.h512 s.ibuf = some h ∧ kinitStep P s = { s with kst := h, krnd := 0, phase := .krun }) := by
  unfold kinitStep
  cases P.h512 s.ibuf <;> simp

/-- Everything a step in KRUN can do. -/
theorem krunStep_cases (P : Platform) (s : State) :
    (s.krnd < kdfRounds ∧ P.h512 s.kst.val = none ∧ krunStep P s = s.raise .hash) ∨
    (∃ h, s.krnd < kdfRounds ∧ P.h512 s.kst.val = some h ∧
      krunStep P s = { s with kst := kxf h s.krnd, krnd := s.krnd + 1 }) ∨
    (kdfRounds ≤ s.krnd ∧ krunStep P s = { s with phase := .kout }) := by
  unfold krunStep
  by_cases h : s.krnd < kdfRounds
  · cases P.h512 s.kst.val <;> simp [h]
  · simp [h]
    omega

/-- Everything a step in GEN can do. -/
theorem genStep_cases (P : Platform) (n : Nat) (s : State) :
    (∃ e, s.obuf.length < n ∧ entByte P s.ent = .failed e ∧ genStep P n s = State.raise .hash { s with ent := e }) ∨
    (∃ b e, s.obuf.length < n ∧ entByte P s.ent = .got b e ∧ genStep P n s = State.appendOut [b] { s with ent := e }) ∨
    (n ≤ s.obuf.length ∧ genStep P n s = s.complete) := by
  unfold genStep
  by_cases h : s.obuf.length < n
  · cases entByte P s.ent <;> simp [h]
  · simp [h]
    omega

/-- The loop of GEN from an empty OBUF on is ENT.BYTES. -/
theorem whilePhase_genStep (P : Platform) (n : Nat) :
    ∀ (k : Nat) (s : State), s.phase = .gen → s.obuf.length + k = n →
      whilePhase .gen (genStep P n) (k + 1) s = (match entBytes P k s.ent with
        | .got bs e => State.complete { s with ent := e, obuf := s.obuf ++ bs }
        | .failed e => State.raise .hash { s with ent := e }) := by
  intro k
  induction k with
  | zero =>
    intro s hp hn
    have : ¬ s.obuf.length < n := by omega
    rw [whilePhase_succ hp]
    simp [whilePhase, genStep, this, entBytes]
  | succ k ih =>
    intro s hp hn
    have hlt : s.obuf.length < n := by omega
    rw [whilePhase_succ hp]
    cases hb : entByte P s.ent with
    | failed e =>
      rw [whilePhase_of_ne] <;> simp [genStep, hlt, hb, entBytes]
    | got b e =>
      have hg : genStep P n s = State.appendOut [b] { s with ent := e } := by simp [genStep, hlt, hb]
      rw [hg, ih (State.appendOut [b] { s with ent := e }) hp (by simp; omega)]
      simp only [appendOut_ent, appendOut_obuf, entBytes, hb]
      cases entBytes P k e <;> simp [State.appendOut, State.complete, State.raise]

/-! ## The façade commands (R180, R181) -/

/-- Everything CHECK of KEYLD can do. -/
theorem keyldCheck_cases (s : State) :
    (∃ l, keyLenOf s.ibuf.length = some l ∧ keyldCheck s = State.complete { s with key := toReg 32 s.ibuf, klen := l }) ∨
    (keyLenOf s.ibuf.length = none ∧
      keyldCheck s = State.raise .keylen { s with key := ByteReg.zero 32, klen := .none }) := by
  unfold keyldCheck
  cases keyLenOf s.ibuf.length <;> simp

/-- Everything CHECK of IVLD can do. -/
theorem ivldCheck_cases (s : State) :
    (s.ibuf.length = 16 ∧ ivldCheck s = State.complete { s with iv := toReg 16 s.ibuf, ivv := true }) ∨
    (s.ibuf.length ≠ 16 ∧ ivldCheck s = State.raise .ivlen { s with iv := ByteReg.zero 16, ivv := false }) := by
  unfold ivldCheck
  by_cases h : s.ibuf.length = 16 <;> simp [h]

/-! ## The host moves (R56, R57) -/

/-- What H.LOAD does when it answers a next state. -/
theorem loadMove_next {P : Platform} {b : Bytes} {s t : State} (h : loadMove P b s = .next t) :
    s.busy = false ∧ b.length ≤ P.lenMax ∧ t = { s with ibuf := b } := by
  unfold loadMove at h
  split at h
  · cases h
  · split at h
    · cases h
    · cases h
      simp_all

/-- Everything H.CMD can do. -/
theorem cmdMove_cases (run : Instr → State → Host.Outcome State Fault Refusal) (w : Word) (s : State) :
    (s.busy = true ∧ cmdMove run w s = .next { s with ovr := true }) ∨
    (∃ i, s.busy = false ∧ decode w = .ok i ∧ cmdMove run w s = run i s) ∨
    (∃ e, s.busy = false ∧ decode w = .error e ∧ cmdMove run w s = .next ((s.issue w).raise (decodeErrCode e))) := by
  unfold cmdMove
  cases hb : s.busy <;> cases hd : decode w <;> simp_all

end Sys2Proof.Machine
end

