-- ==== Sys2Proof/Laws/Ciphers.lean ====
section
/-! SUPPORT. Each STEP function as a rule on FB and the input unit (R125, R150), and a whole cipher command from its rule. -/

namespace Sys2Proof.Machine

/-! ## The rules -/

/-- The rule of ECB in a direction given by `f` (R125). -/
def ecbRule (f : Bytes → Block → Option Block) (key : Bytes) (fb : Block) (u : Bytes) : Option (Bytes × Block) :=
  (f key (toReg 16 u)).map fun c => (c.val, fb)

/-- The rule of CBC.ENC (R136). -/
def cbcEncRule (f : Bytes → Block → Option Block) (key : Bytes) (fb : Block) (u : Bytes) : Option (Bytes × Block) :=
  (f key (xorBlock (toReg 16 u) fb)).map fun c => (c.val, c)

/-- The rule of CBC.DEC (R140). -/
def cbcDecRule (f : Bytes → Block → Option Block) (key : Bytes) (fb : Block) (u : Bytes) : Option (Bytes × Block) :=
  (f key (toReg 16 u)).map fun t => ((xorBlock t fb).val, toReg 16 u)

/-- The rule of CFB.ENC (R151). -/
def cfbEncRule (f : Bytes → Block → Option Block) (key : Bytes) (fb : Block) (u : Bytes) : Option (Bytes × Block) :=
  (f key fb).map fun k => (xorBytes u (k.val.take u.length), if u.length = 16 then toReg 16 (xorBytes u k.val) else fb)

/-- The rule of CFB.DEC (R152). -/
def cfbDecRule (f : Bytes → Block → Option Block) (key : Bytes) (fb : Block) (u : Bytes) : Option (Bytes × Block) :=
  (f key fb).map fun k => (xorBytes u (k.val.take u.length), if u.length = 16 then toReg 16 u else fb)

/-- The rule of OFB (R153). -/
def ofbRule (f : Bytes → Block → Option Block) (key : Bytes) (fb : Block) (u : Bytes) : Option (Bytes × Block) :=
  (f key fb).map fun k => (xorBytes u (k.val.take u.length), k)

/-- The rule of CTR (R155). -/
def ctrRule (f : Bytes → Block → Option Block) (key : Bytes) (fb : Block) (u : Bytes) : Option (Bytes × Block) :=
  (f key fb).map fun k => (xorBytes u (k.val.take u.length), toBE128 ((be128 fb + 1) % 2 ^ 128))

/-- The rule of each mode and direction. -/
def ruleOf (P : Platform) : Mode → Dir → Bytes → Block → Bytes → Option (Bytes × Block)
  | .ecb, .enc => ecbRule P.enc
  | .ecb, .dec => ecbRule P.dec
  | .cbc, .enc => cbcEncRule P.enc
  | .cbc, .dec => cbcDecRule P.dec
  | .cfb, .enc => cfbEncRule P.enc
  | .cfb, .dec => cfbDecRule P.enc
  | .ofb, _ => ofbRule P.enc
  | .ctr, _ => ctrRule P.enc

/-- The input units of each mode and direction (R150, R186). -/
def inputUnits (m : Mode) (d : Dir) (ibuf : Bytes) : List Bytes :=
  unitsOf (blockCount m d ibuf.length) (if padded m = true ∧ d = .enc then pad ibuf else ibuf)

theorem inputUnits_length (m : Mode) (d : Dir) (ibuf : Bytes) : (inputUnits m d ibuf).length = blockCount m d ibuf.length := by
  simp [inputUnits]

/-- Input unit `i` is a slice at `16i`. -/
theorem inputUnits_get {m : Mode} {d : Dir} {ibuf : Bytes} {i : Nat} {u : Bytes} (h : (inputUnits m d ibuf)[i]? = some u) :
    u = memRead (if padded m = true ∧ d = .enc then pad ibuf else ibuf) (16 * i) 16 := by
  have hi : i < (inputUnits m d ibuf).length := by
    rcases Nat.lt_or_ge i (inputUnits m d ibuf).length with h' | h'
    · exact h'
    · simp [List.getElem?_eq_none h'] at h
  rw [inputUnits_length] at hi
  rw [inputUnits, unitsOf_get _ hi] at h
  exact (Option.some.inj h).symm

/-- The length of a sequence XOR a block. -/
theorem blockMin (n : Nat) (k : Block) : min n k.val.length = min n 16 := by rw [k.property]

/-- Every STEP function is its mode's rule on its mode's units. -/
theorem blockStepOf_follows (P : Platform) (m : Mode) (d : Dir) (key ibuf : Bytes) :
    Follows P (blockStepOf m d) key ibuf (ruleOf P m d key) (inputUnits m d ibuf) := by
  intro s i u hk hi hu
  have hu' := inputUnits_get hu
  have hl : u.length ≤ 16 := by rw [hu']; simp
  subst hk hi
  cases m <;> cases d <;>
    simp only [padded, if_true, if_false, Bool.false_eq_true, false_and, true_and, reduceCtorEq] at hu' <;>
    simp only [blockStepOf, ruleOf, ecbRule, cbcEncRule, cbcDecRule, cfbEncRule, cfbDecRule, ofbRule, ctrRule, stepEcbEnc,
      stepEcbDec, stepCbcEnc, stepCbcDec, stepCfbEnc, stepCfbDec, stepOfb, stepCtr, paddedBlock, cipherBlock, streamUnit_eq,
      xorBytes_take, ← hu'] <;>
    (split <;> rename_i h <;> simp [h, feedback, nextCounter, blockMin, Nat.min_eq_left hl])

/-! ## A whole cipher command -/

/-- How a cipher command ends after its block loop. -/
def endOf (m : Mode) (d : Dir) (w : Word) (r : LoopEnd) (s : State) : State :=
  if padded m = true ∧ d = .dec then unpaddedEnd w r s else cipherEnd w r s

/-- RUN and FINAL of an issued command, from the state in which RUN was entered. -/
theorem runBlocks_then_final {P : Platform} {m : Mode} {d : Dir} {s : State} (hp : s.phase = .run) (hb : s.blkidx = 0)
    (ho : s.obuf = []) (hr : s.err = false) (hv : s.ovr = false) (hz : s.errcode = 0) :
    whilePhase .final (finalStep m d) 1 (runBlocks P m d (blockStepOf m d) s) =
      endOf m d s.cur (blockLoop (ruleOf P m d s.keyInForce) s.fb (inputUnits m d s.ibuf)) s := by
  rw [runBlocks_eq (blockStepOf_follows P m d s.keyInForce s.ibuf) (inputUnits_length m d s.ibuf) hp hb ho]
  generalize blockLoop (ruleOf P m d s.keyInForce) s.fb (inputUnits m d s.ibuf) = r
  obtain ⟨out, blocks, fb, failed⟩ := r
  cases s
  simp only at hr hv hz ho
  subst hr hv hz ho
  cases failed
  · simp only [Bool.false_eq_true, if_false, whilePhase, if_true, finalStep, endOf, unpaddedEnd, cipherEnd]
    by_cases h : padded m = true ∧ d = .dec
    · simp only [h, and_self, if_true]
      cases unpad out <;> rfl
    · simp only [h, if_false]
      rfl
  · rw [if_pos rfl, whilePhase_of_ne (by simp)]
    simp only [endOf, unpaddedEnd, cipherEnd, if_true, ite_self]
    rfl

/-- The four phases, written as one term. -/
theorem cipherOn_phases (P : Platform) (m : Mode) (d : Dir) (a : Bool) (step : BlockStep) (s : State) :
    cipherOn P m d a step s = whilePhase .final (finalStep m d) 1 (runBlocks P m d step
      (whilePhase .ivgen (ivgenStep P m) 1 (cipherCheck m d a (s.issue (encode (Instr.ofCipher m d a)))))) := rfl

/-- A cipher command whose checks pass and which needs no new IV: the mode's rule over the input units, from FB on, where FB is
IV but in ECB. -/
theorem cipherOn_eq {P : Platform} {m : Mode} {d : Dir} {a : Bool} {s : State} (hk : s.klen ≠ .none)
    (hv : needsIV m = true → s.ivv = true) (ha : padded m = true → d = .dec → s.ibuf.length % 16 = 0) :
    cipherOn P m d a (blockStepOf m d) s =
      endOf m d (encode (Instr.ofCipher m d a))
        (blockLoop (ruleOf P m d s.keyInForce) (if needsIV m then s.iv else s.fb) (inputUnits m d s.ibuf)) s := by
  rw [cipherOn_phases, cipherCheck_pass (by simpa using hk) (by simpa using hv) (by simpa using ha)]
  rw [whilePhase_of_ne (s := enterRun m _) (by simp), runBlocks_then_final] <;> simp
  simp only [endOf, unpaddedEnd, cipherEnd]
  rfl

/-- A cipher command that generates its IV is the command with that IV loaded. -/
theorem cipherOn_autoiv {P : Platform} {m : Mode} {d : Dir} {s : State} {v : Bytes} {e : Entropy} (hk : s.klen ≠ .none)
    (hn : needsIV m = true) (hv : s.ivv = false) (ha : padded m = true → d = .dec → s.ibuf.length % 16 = 0)
    (he : entBytes P 16 s.ent = .got v e) (step : BlockStep) :
    cipherOn P m d true step s = cipherOn P m d true step { s with ent := e, iv := toReg 16 v, ivv := true } := by
  have h1 : cipherCheck m d true (s.issue (encode (Instr.ofCipher m d true))) =
      { s.issue (encode (Instr.ofCipher m d true)) with phase := .ivgen } := by
    unfold cipherCheck
    cases hp : padded m <;> cases d <;> simp_all
  rw [cipherOn_phases, cipherOn_phases, h1, whilePhase_succ (ph := .ivgen) (by rfl), whilePhase, ivgenStep]
  simp only [issue_ent, he]
  rw [cipherCheck_pass (by simpa using hk) (by simp) (by simpa using ha), whilePhase_of_ne (s := enterRun m _) (by simp)]
  rfl

/-- Once a command has completed, RUN and FINAL do nothing. -/
theorem runFinal_of_idle {P : Platform} {m : Mode} {d : Dir} {step : BlockStep} {s : State} (h : s.phase = .idle) :
    whilePhase .final (finalStep m d) 1 (runBlocks P m d step s) = s := by
  have h2 : runBlocks P m d step s = s := whilePhase_of_ne (by simp [h])
  rw [h2, whilePhase_of_ne (by simp [h])]

/-- Once a command has completed, the phases that follow do nothing. -/
theorem tail_of_idle {P : Platform} {m : Mode} {d : Dir} {step : BlockStep} {s : State} (h : s.phase = .idle) :
    whilePhase .final (finalStep m d) 1 (runBlocks P m d step (whilePhase .ivgen (ivgenStep P m) 1 s)) = s := by
  have h1 : whilePhase .ivgen (ivgenStep P m) 1 s = s := whilePhase_of_ne (by simp [h])
  rw [h1, runFinal_of_idle h]

/-- A cipher command with no key. -/
theorem cipherOn_keylen {P : Platform} {m : Mode} {d : Dir} {a : Bool} {step : BlockStep} {s : State} (hk : s.klen = .none) :
    cipherOn P m d a step s = endedErr (encode (Instr.ofCipher m d a)) .keylen { s with blkidx := 0 } := by
  have h : cipherCheck m d a (s.issue (encode (Instr.ofCipher m d a))) =
      (s.issue (encode (Instr.ofCipher m d a))).raise .keylen := by
    simp [cipherCheck, hk]
  rw [cipherOn_phases, h, tail_of_idle (by simp)]
  rfl

/-- A cipher command with a key, but without the IV it needs and without AUTOIV. -/
theorem cipherOn_ivmiss {P : Platform} {m : Mode} {d : Dir} {step : BlockStep} {s : State} (hk : s.klen ≠ .none)
    (hn : needsIV m = true) (hv : s.ivv = false) :
    cipherOn P m d false step s = endedErr (encode (Instr.ofCipher m d false)) .ivmiss { s with blkidx := 0 } := by
  have h : cipherCheck m d false (s.issue (encode (Instr.ofCipher m d false))) =
      (s.issue (encode (Instr.ofCipher m d false))).raise .ivmiss := by
    simp [cipherCheck, hk, hn, hv]
  rw [cipherOn_phases, h, tail_of_idle (by simp)]
  rfl

/-- A padded decryption of a misaligned length, the checks before it passed. -/
theorem cipherOn_align {P : Platform} {m : Mode} {a : Bool} {step : BlockStep} {s : State} (hk : s.klen ≠ .none)
    (hv : needsIV m = true → s.ivv = false → a = true) (hp : padded m = true) (ha : s.ibuf.length % 16 ≠ 0) :
    cipherOn P m .dec a step s = endedErr (encode (Instr.ofCipher m .dec a)) .align { s with blkidx := 0 } := by
  have h : cipherCheck m .dec a (s.issue (encode (Instr.ofCipher m .dec a))) =
      (s.issue (encode (Instr.ofCipher m .dec a))).raise .align := by
    unfold cipherCheck
    cases hn : needsIV m <;> cases hi : s.ivv <;> simp_all
  rw [cipherOn_phases, h, tail_of_idle (by simp)]
  rfl

/-- Automatic IV generation on an entropy hash that fails. -/
theorem cipherOn_autoiv_failed {P : Platform} {m : Mode} {d : Dir} {s : State} {e : Entropy} (hk : s.klen ≠ .none)
    (hn : needsIV m = true) (hv : s.ivv = false) (ha : padded m = true → d = .dec → s.ibuf.length % 16 = 0)
    (he : entBytes P 16 s.ent = .failed e) (step : BlockStep) :
    cipherOn P m d true step s = endedErr (encode (Instr.ofCipher m d true)) .hash { s with ent := e, blkidx := 0 } := by
  have h1 : cipherCheck m d true (s.issue (encode (Instr.ofCipher m d true))) =
      { s.issue (encode (Instr.ofCipher m d true)) with phase := .ivgen } := by
    unfold cipherCheck
    cases hp : padded m <;> cases d <;> simp_all
  have h2 : whilePhase .ivgen (ivgenStep P m) 1 { s.issue (encode (Instr.ofCipher m d true)) with phase := .ivgen } =
      State.raise .hash { s.issue (encode (Instr.ofCipher m d true)) with phase := .ivgen, ent := e } := by
    rw [whilePhase_succ (ph := .ivgen) (by rfl), whilePhase, ivgenStep]
    simp only [issue_ent, he]
  rw [cipherOn_phases, h1, h2, runFinal_of_idle (by simp)]
  rfl

/-- Everything a cipher command can do, in the order of its checks (R177, R222). -/
theorem cipherOn_cases (P : Platform) (m : Mode) (d : Dir) (a : Bool) (s : State) :
    (s.klen = .none ∧
      cipherOn P m d a (blockStepOf m d) s = endedErr (encode (Instr.ofCipher m d a)) .keylen { s with blkidx := 0 }) ∨
    (s.klen ≠ .none ∧ needsIV m = true ∧ s.ivv = false ∧ a = false ∧
      cipherOn P m d a (blockStepOf m d) s = endedErr (encode (Instr.ofCipher m d a)) .ivmiss { s with blkidx := 0 }) ∨
    (s.klen ≠ .none ∧ padded m = true ∧ d = .dec ∧ s.ibuf.length % 16 ≠ 0 ∧
      cipherOn P m d a (blockStepOf m d) s = endedErr (encode (Instr.ofCipher m d a)) .align { s with blkidx := 0 }) ∨
    (∃ e, s.klen ≠ .none ∧ needsIV m = true ∧ s.ivv = false ∧ a = true ∧ entBytes P 16 s.ent = .failed e ∧
      cipherOn P m d a (blockStepOf m d) s =
        endedErr (encode (Instr.ofCipher m d a)) .hash { s with ent := e, blkidx := 0 }) ∨
    (∃ v e, s.klen ≠ .none ∧ needsIV m = true ∧ s.ivv = false ∧ a = true ∧ entBytes P 16 s.ent = .got v e ∧
      (padded m = true → d = .dec → s.ibuf.length % 16 = 0) ∧
      cipherOn P m d a (blockStepOf m d) s = endOf m d (encode (Instr.ofCipher m d a))
        (blockLoop (ruleOf P m d s.keyInForce) (toReg 16 v) (inputUnits m d s.ibuf))
        { s with ent := e, iv := toReg 16 v, ivv := true }) ∨
    (s.klen ≠ .none ∧ (needsIV m = true → s.ivv = true) ∧ (padded m = true → d = .dec → s.ibuf.length % 16 = 0) ∧
      cipherOn P m d a (blockStepOf m d) s = endOf m d (encode (Instr.ofCipher m d a))
        (blockLoop (ruleOf P m d s.keyInForce) (if needsIV m then s.iv else s.fb) (inputUnits m d s.ibuf)) s) := by
  by_cases hk : s.klen = .none
  · exact .inl ⟨hk, cipherOn_keylen hk⟩
  refine .inr ?_
  by_cases hi : needsIV m = true ∧ s.ivv = false ∧ a = false
  · obtain ⟨h1, h2, rfl⟩ := hi
    exact .inl ⟨hk, h1, h2, rfl, cipherOn_ivmiss hk h1 h2⟩
  refine .inr ?_
  have hi' : needsIV m = true → s.ivv = false → a = true := by
    intro h1 h2
    cases a <;> simp_all
  by_cases hp : padded m = true ∧ d = .dec ∧ s.ibuf.length % 16 ≠ 0
  · obtain ⟨h1, rfl, h2⟩ := hp
    exact .inl ⟨hk, h1, rfl, h2, cipherOn_align hk hi' h1 h2⟩
  refine .inr ?_
  have hp' : padded m = true → d = .dec → s.ibuf.length % 16 = 0 := by
    intro h1 h2
    by_contra h3
    exact hp ⟨h1, h2, h3⟩
  by_cases hg : needsIV m = true ∧ s.ivv = false
  · obtain ⟨h1, h2⟩ := hg
    obtain rfl := hi' h1 h2
    cases he : entBytes P 16 s.ent with
    | failed e => exact .inl ⟨e, hk, h1, h2, rfl, rfl, cipherOn_autoiv_failed hk h1 h2 hp' he _⟩
    | got v e =>
      refine .inr (.inl ⟨v, e, hk, h1, h2, rfl, rfl, hp', ?_⟩)
      rw [cipherOn_autoiv hk h1 h2 hp' he, cipherOn_eq (by exact hk) (by simp) (by exact hp')]
      simp only [h1, if_true]
      rfl
  · have hv : needsIV m = true → s.ivv = true := by
      intro h1
      cases h2 : s.ivv <;> simp_all
    exact .inr (.inr ⟨hk, hv, hp', cipherOn_eq hk hv hp'⟩)

end Sys2Proof.Machine
end

