-- ==== Sys2Proof/Laws/Commands.lean ====
section
/-! SUPPORT. What KDF and RNG do as whole commands, and the cipher commands as one family. -/

namespace Sys2Proof.Machine

/-! ## The cipher commands as one family -/

theorem perform_ofCipher (P : Platform) (m : Mode) (d : Dir) (a : Bool) (s : State) :
    perform P (Instr.ofCipher m d a) s = cipherOn P m d a (blockStepOf m d) s := by
  cases m <;> cases d <;> rfl

theorem checkOf_ofCipher (m : Mode) (d : Dir) (a : Bool) (s : State) :
    checkOf (Instr.ofCipher m d a) s = cipherCheck m d a s := by
  cases m <;> cases d <;> rfl

theorem cipherFields_ofCipher (m : Mode) (d : Dir) (a : Bool) : cipherFields (Instr.ofCipher m d a) = some (m, d, a) := by
  cases m <;> cases d <;> rfl

theorem wellFormed_ofCipher (m : Mode) (d : Dir) (a : Bool) : (Instr.ofCipher m d a).WellFormed := by
  cases m <;> cases d <;> rfl

theorem cipherFields_eq_some {i : Instr} {m : Mode} {d : Dir} {a : Bool} (h : cipherFields i = some (m, d, a)) :
    i = Instr.ofCipher m d a := by
  cases i <;> simp only [cipherFields, Option.some.injEq, Prod.mk.injEq, reduceCtorEq] at h <;>
    obtain ⟨rfl, rfl, rfl⟩ := h <;> rfl

/-! ## KDF (R113, R116) -/

/-- Where the loop of KDF stops: KST, KRND, and whether the hash failed. -/
structure KdfEnd where
  kst : ByteReg 64
  krnd : Nat
  failed : Bool

/-- At most `k` iterations from iteration `i` on (R113). -/
def kdfLoop (P : Platform) : Nat → Nat → ByteReg 64 → KdfEnd
  | 0, i, st => { kst := st, krnd := i, failed := false }
  | k + 1, i, st =>
    match P.h512 st.val with
    | none => { kst := st, krnd := i, failed := true }
    | some h => kdfLoop P k (i + 1) (kxf h i)

/-- The loop of KRUN is `kdfLoop`. -/
theorem whilePhase_krunStep (P : Platform) : ∀ (k : Nat) (s : State), s.phase = .krun → s.krnd + k = kdfRounds →
    whilePhase .krun (krunStep P) (k + 1) s =
      (if (kdfLoop P k s.krnd s.kst).failed then
        State.raise .hash { s with kst := (kdfLoop P k s.krnd s.kst).kst, krnd := (kdfLoop P k s.krnd s.kst).krnd }
      else
        { s with kst := (kdfLoop P k s.krnd s.kst).kst, krnd := (kdfLoop P k s.krnd s.kst).krnd, phase := .kout }) := by
  intro k
  induction k with
  | zero =>
    intro s hp hk
    have : ¬ s.krnd < kdfRounds := by omega
    rw [whilePhase_succ hp]
    simp [whilePhase, krunStep, this, kdfLoop]
  | succ k ih =>
    intro s hp hk
    have hlt : s.krnd < kdfRounds := by omega
    rw [whilePhase_succ hp]
    cases hh : P.h512 s.kst.val with
    | none =>
      have h1 : krunStep P s = s.raise .hash := by simp [krunStep, hlt, hh]
      rw [h1, whilePhase_of_ne (by simp)]
      simp [kdfLoop, hh]
    | some h =>
      have h1 : krunStep P s = { s with kst := kxf h s.krnd, krnd := s.krnd + 1 } := by simp [krunStep, hlt, hh]
      rw [h1, ih { s with kst := kxf h s.krnd, krnd := s.krnd + 1 } hp (by simp; omega)]
      simp only [kdfLoop, hh]

/-- Everything KDF can do. -/
theorem kdfOn_cases (P : Platform) (s : State) :
    (P.h512 s.ibuf = none ∧ kdfOn P s = endedErr (encode .kdf) .hash { s with blkidx := 0 }) ∨
    (∃ h, P.h512 s.ibuf = some h ∧ (kdfLoop P kdfRounds 0 h).failed = true ∧
      kdfOn P s = endedErr (encode .kdf) .hash
        { s with kst := (kdfLoop P kdfRounds 0 h).kst, krnd := (kdfLoop P kdfRounds 0 h).krnd, blkidx := 0 }) ∨
    (∃ h, P.h512 s.ibuf = some h ∧ (kdfLoop P kdfRounds 0 h).failed = false ∧
      kdfOn P s = endedOk (encode .kdf)
        { s with kst := (kdfLoop P kdfRounds 0 h).kst, krnd := (kdfLoop P kdfRounds 0 h).krnd,
                 obuf := (kdfLoop P kdfRounds 0 h).kst.val.take 16, blkidx := 0 }) := by
  have hu : kdfOn P s = whilePhase .kout koutStep 1 (whilePhase .krun (krunStep P) (kdfRounds + 1)
      (whilePhase .kinit (kinitStep P) 1 (kdfCheck (s.issue (encode .kdf))))) := rfl
  have h1 : whilePhase .kinit (kinitStep P) 1 (kdfCheck (s.issue (encode .kdf))) =
      kinitStep P (kdfCheck (s.issue (encode .kdf))) := by
    rw [whilePhase_succ (ph := .kinit) (by rfl), whilePhase]
  cases hh : P.h512 s.ibuf with
  | none =>
    refine .inl ⟨rfl, ?_⟩
    have h2 : kinitStep P (kdfCheck (s.issue (encode .kdf))) = (kdfCheck (s.issue (encode .kdf))).raise .hash := by
      simp [kinitStep, kdfCheck, hh]
    have h3 : whilePhase .krun (krunStep P) (kdfRounds + 1) ((kdfCheck (s.issue (encode .kdf))).raise .hash) =
        (kdfCheck (s.issue (encode .kdf))).raise .hash := whilePhase_of_ne (by simp)
    rw [hu, h1, h2, h3, whilePhase_of_ne (by simp)]
    rfl
  | some h =>
    refine .inr ?_
    have h2 : kinitStep P (kdfCheck (s.issue (encode .kdf))) =
        { kdfCheck (s.issue (encode .kdf)) with kst := h, krnd := 0, phase := .krun } := by
      simp [kinitStep, kdfCheck, hh]
    have h3 := whilePhase_krunStep P kdfRounds { kdfCheck (s.issue (encode .kdf)) with kst := h, krnd := 0, phase := .krun }
      rfl (Nat.zero_add _)
    rw [hu, h1, h2, h3]
    cases hf : (kdfLoop P kdfRounds 0 h).failed
    · refine .inr ⟨h, rfl, hf, ?_⟩
      simp only [Bool.false_eq_true, if_false]
      rw [whilePhase_succ (ph := .kout) (by rfl), whilePhase]
      rfl
    · refine .inl ⟨h, rfl, hf, ?_⟩
      simp only [if_true]
      rw [whilePhase_of_ne (by simp)]
      rfl

theorem kdfLoop_krnd_le (P : Platform) (k i : Nat) (st : ByteReg 64) : (kdfLoop P k i st).krnd ≤ i + k := by
  induction k generalizing i st with
  | zero => simp [kdfLoop]
  | succ k ih =>
    rw [kdfLoop]
    cases P.h512 st.val with
    | none => simp
    | some h =>
      have := ih (i + 1) (kxf h i)
      simp only
      omega

/-! ## RNG (R97, R98) -/

/-- ENT.BYTES(n) draws `n` bytes when it does not fail. -/
theorem entBytes_length {P : Platform} {n : Nat} {e e' : Entropy} {bs : Bytes} (h : entBytes P n e = .got bs e') :
    bs.length = n := by
  induction n generalizing e bs with
  | zero =>
    cases h
    rfl
  | succ n ih =>
    rw [entBytes] at h
    split at h
    · cases h
    · split at h
      · cases h
      · rename_i h2
        cases h
        simp [ih h2]

/-- RNG from its issue on: the loop of GEN on an empty OBUF. -/
theorem rngOn_eq (P : Platform) (n : Nat) (s : State) :
    rngOn P n s = (match entBytes P n s.ent with
      | .got bs e => State.complete { rngCheck (s.issue (encode (.rng n))) with ent := e, obuf := bs }
      | .failed e => State.raise .hash { rngCheck (s.issue (encode (.rng n))) with ent := e }) :=
  whilePhase_genStep P n n (rngCheck (s.issue (encode (.rng n)))) rfl (Nat.zero_add n)

end Sys2Proof.Machine
end

