-- ==== Sys2Proof/Laws/Decode.lean ====
section
/-! SUPPORT. The fields of a word and of an assembled word (R71), and what each accepted word looks like (R78). -/

namespace Sys2Proof

@[simp] theorem opField_assemble (n : BitVec 16) (r : BitVec 7) (a : Bool) (op : Byte) : opField (assemble n r a op) = op := by
  apply BitVec.eq_of_getLsbD_eq
  intro i hi
  simp only [opField, assemble, BitVec.getLsbD_extractLsb', BitVec.getLsbD_append]
  simp [hi]

@[simp] theorem autoivField_assemble (n : BitVec 16) (r : BitVec 7) (a : Bool) (op : Byte) :
    autoivField (assemble n r a op) = a := by
  simp only [autoivField, assemble, BitVec.getLsbD_append]
  cases a <;> simp

@[simp] theorem rsvField_assemble (n : BitVec 16) (r : BitVec 7) (a : Bool) (op : Byte) : rsvField (assemble n r a op) = r := by
  apply BitVec.eq_of_getLsbD_eq
  intro i hi
  have h1 : ¬ 9 + i < 8 := by omega
  have h2 : ¬ 9 + i - 8 < 1 := by omega
  have h3 : 9 + i - 8 - 1 = i := by omega
  simp only [rsvField, assemble, BitVec.getLsbD_extractLsb', BitVec.getLsbD_append]
  simp [hi, h1, h2, h3]

@[simp] theorem countField_assemble (n : BitVec 16) (r : BitVec 7) (a : Bool) (op : Byte) :
    countField (assemble n r a op) = n := by
  apply BitVec.eq_of_getLsbD_eq
  intro i hi
  have h1 : ¬ 16 + i < 8 := by omega
  have h2 : ¬ 16 + i - 8 < 1 := by omega
  have h3 : ¬ 16 + i - 8 - 1 < 7 := by omega
  have h4 : 16 + i - 8 - 1 - 7 = i := by omega
  simp only [countField, assemble, BitVec.getLsbD_extractLsb', BitVec.getLsbD_append]
  simp [hi, h1, h2, h3, h4]

/-- A word is put together from its own fields: no bit is outside them. -/
theorem assemble_fields (w : Word) : assemble (countField w) (rsvField w) (autoivField w) (opField w) = w := by
  apply BitVec.eq_of_getLsbD_eq
  intro i hi
  simp only [countField, rsvField, autoivField, opField, assemble, BitVec.getLsbD_append, BitVec.getLsbD_extractLsb']
  by_cases h1 : i < 8
  · simp [h1]
  · by_cases h2 : i - 8 < 1
    · have : i = 8 := by omega
      subst this
      simp
    · by_cases h3 : i - 8 - 1 < 7
      · have : 9 + (i - 8 - 1) = i := by omega
        simp [h1, h2, h3, this]
      · have h4 : i - 8 - 1 - 7 < 16 := by omega
        have : 16 + (i - 8 - 1 - 7) = i := by omega
        simp [h1, h2, h3, h4, this]

/-- Two words with the same fields are the same word. -/
theorem word_ext {v w : Word} (h1 : countField v = countField w) (h2 : rsvField v = rsvField w)
    (h3 : autoivField v = autoivField w) (h4 : opField v = opField w) : v = w := by
  rw [← assemble_fields v, ← assemble_fields w, h1, h2, h3, h4]

/-- The fields of the number a word is. -/
theorem opField_toNat (w : Word) : (opField w).toNat = w.toNat % 256 := by
  simp [opField, BitVec.extractLsb'_toNat]

theorem rsvField_toNat (w : Word) : (rsvField w).toNat = w.toNat / 512 % 128 := by
  simp [rsvField, BitVec.extractLsb'_toNat, Nat.shiftRight_eq_div_pow]

theorem countField_toNat (w : Word) : (countField w).toNat = w.toNat / 65536 := by
  have := w.isLt
  simp only [countField, BitVec.extractLsb'_toNat, Nat.shiftRight_eq_div_pow]
  omega

@[simp] theorem opField_encode (i : Instr) : opField (encode i) = i.opcode := opField_assemble _ _ _ _

@[simp] theorem rsvField_encode (i : Instr) : rsvField (encode i) = 0 := rsvField_assemble _ _ _ _

@[simp] theorem autoivField_encode (i : Instr) : autoivField (encode i) = i.autoivBit := autoivField_assemble _ _ _ _

@[simp] theorem countField_encode (i : Instr) : countField (encode i) = i.countBits := countField_assemble _ _ _ _

end Sys2Proof
end

