-- ==== Sys2Proof/Laws/Entropy.lean ====
section
/-! SUPPORT. What the pieces of generation keep (R36, R92 to R97): the bounds of the entropy state, along every draw. -/

namespace Sys2Proof.Machine

/-- The bounds of the entropy state (R36, R38). -/
structure EntropyOk (P : Platform) (e : Entropy) : Prop where
  edigLen : e.edig.length = P.le
  edposLe : e.edpos ≤ P.le
  ebitsLe : e.ebits ≤ 999 + e.edpos
  unsampled : e.esv = false → e.edpos = P.le ∧ e.ecnt = 0

/-- What a draw leaves, failed or not, satisfies `p`. -/
def Drawn.Leaves {α : Type} (p : Entropy → Prop) : Drawn α → Prop
  | .got _ e => p e
  | .failed e => p e

/-- After a resampling if one is due, a sample is there and fewer than 1,000 bits have been taken under it (R93). -/
theorem entResampleIfDue_sampled (P : Platform) (e : Entropy) :
    (entResampleIfDue P e).esv = true ∧ (entResampleIfDue P e).ebits < 1000 ∧ (entResampleIfDue P e).edig = e.edig ∧
      (entResampleIfDue P e).edpos = e.edpos ∧ (entResampleIfDue P e).ecnt = e.ecnt := by
  unfold entResampleIfDue
  by_cases h : e.esv = false ∨ 1000 ≤ e.ebits
  · simp [h]
  · rw [if_neg h]
    push Not at h
    refine ⟨by cases hv : e.esv <;> simp_all, h.2, rfl, rfl, rfl⟩

/-- What a successful hash call leaves (R94). -/
theorem entHashCall_some {P : Platform} {e e' : Entropy} (h : entHashCall P e = some e') :
    e'.edig.length = P.le ∧ e'.edpos = 0 ∧ e'.ecnt = e.ecnt + 1 ∧ e'.esv = e.esv ∧ e'.ebits = e.ebits := by
  unfold entHashCall at h
  split at h
  · cases h
  · rename_i d _
    cases h
    exact ⟨d.property, rfl, rfl, rfl, rfl⟩

theorem entTakeBit_ok {P : Platform} {e : Entropy} (hl : e.edig.length = P.le) (hp : e.edpos < P.le)
    (hb : e.ebits ≤ 999 + e.edpos) (hv : e.esv = true) : (entTakeBit e).Leaves (EntropyOk P) := by
  refine ⟨hl, hp, ?_, ?_⟩
  · simp only
    omega
  · intro h
    rw [hv] at h
    cases h

/-- ENT.BIT keeps the bounds. -/
theorem entBit_ok {P : Platform} {e : Entropy} (h : EntropyOk P e) : (entBit P e).Leaves (EntropyOk P) := by
  have hle := P.le_ge
  unfold entBit
  by_cases hp : e.edpos = P.le
  · rw [if_pos hp]
    obtain ⟨hv, hb, hd, hq, _⟩ := entResampleIfDue_sampled P e
    cases hc : entHashCall P (entResampleIfDue P e) with
    | none =>
      refine ⟨by rw [hd]; exact h.edigLen, by rw [hq]; exact h.edposLe, by omega, ?_⟩
      intro hf
      rw [hv] at hf
      cases hf
    | some e' =>
      obtain ⟨h1, h2, _, h4, h5⟩ := entHashCall_some hc
      exact entTakeBit_ok h1 (by omega) (by omega) (h4.trans hv)
  · rw [if_neg hp]
    refine entTakeBit_ok h.edigLen ?_ h.ebitsLe ?_
    · have := h.edposLe
      omega
    · cases hv : e.esv
      · exact absurd (h.unsampled hv).1 hp
      · rfl

/-- The bits of an accumulator with one more bit shifted in (R96): the new bit is bit 0, the others move up. -/
theorem shiftIn_getLsbD (acc : Byte) (b : Bool) {k : Nat} (h : k < 8) :
    ((acc <<< 1) ||| (BitVec.ofBool b).setWidth 8).getLsbD k = if k = 0 then b else acc.getLsbD (k - 1) := by
  rcases k with _ | k
  · cases b <;> simp
  · have hk : k < 8 := by omega
    cases b <;> simp [h, BitVec.getLsbD_eq_getElem hk]

/-- One more bit, drawn. -/
theorem entBits_succ_got {P : Platform} {n : Nat} {acc : Byte} {b : Bool} {e e' : Entropy} (h : entBit P e = .got b e') :
    entBits P (n + 1) acc e = entBits P n ((acc <<< 1) ||| (BitVec.ofBool b).setWidth 8) e' := by
  rw [entBits, h]

/-- One more bit, failed. -/
theorem entBits_succ_failed {P : Platform} {n : Nat} {acc : Byte} {e e' : Entropy} (h : entBit P e = .failed e') :
    entBits P (n + 1) acc e = .failed e' := by
  rw [entBits, h]

theorem entBits_ok {P : Platform} : ∀ (n : Nat) {acc : Byte} {e : Entropy}, EntropyOk P e →
    (entBits P n acc e).Leaves (EntropyOk P)
  | 0, _, _, h => h
  | n + 1, _, e, h => by
    have hb := entBit_ok h
    rw [entBits]
    cases hc : entBit P e with
    | failed e' => rwa [hc] at hb
    | got b e' =>
      rw [hc] at hb
      exact entBits_ok n hb

/-- ENT.BYTE keeps the bounds. -/
theorem entByte_ok {P : Platform} {e : Entropy} (h : EntropyOk P e) : (entByte P e).Leaves (EntropyOk P) := entBits_ok 8 h

/-- ENT.BYTES keeps the bounds. -/
theorem entBytes_ok {P : Platform} : ∀ (n : Nat) {e : Entropy}, EntropyOk P e → (entBytes P n e).Leaves (EntropyOk P)
  | 0, _, h => h
  | n + 1, e, h => by
    have hb := entByte_ok h
    rw [entBytes]
    cases hc : entByte P e with
    | failed e' => rwa [hc] at hb
    | got b e' =>
      rw [hc] at hb
      have hn := entBytes_ok n hb
      cases hd : entBytes P n e' with
      | failed e'' =>
        rw [hd] at hn
        simpa only [hd] using hn
      | got bs e'' =>
        rw [hd] at hn
        simp only [hd]
        exact hn

end Sys2Proof.Machine
end

