-- ==== Sys2Proof/Laws/Memory.lean ====
section
/-! SUPPORT. The two buffers: reading a byte after a write (R19), and every operation on them keeps their capacities (R51, R52,
R248). -/

namespace Sys2Proof.Machine

/-! ## One byte -/

/-- A byte of OBUF below the old length reads as before, after an append. -/
theorem byteAt_appendOut_of_lt {v : Bytes} {s : State} {k : Nat} (h : k < s.obuf.length) :
    byteAt (s.appendOut v).obuf k = byteAt s.obuf k := by
  simp [byteAt, List.getElem?_append_left h]

/-- The bytes appended read as written. -/
theorem byteAt_appendOut_of_ge {v : Bytes} {s : State} {k : Nat} (h : s.obuf.length ≤ k) :
    byteAt (s.appendOut v).obuf k = byteAt v (k - s.obuf.length) := by
  simp [byteAt, List.getElem?_append_right h]

/-- A buffer is its bytes: equal bytes at every offset make equal buffers. -/
theorem buffer_ext {a b : Bytes} (h : ∀ k, byteAt a k = byteAt b k) : a = b := List.ext_getElem? h

/-- No byte is read at or past the length (R19). -/
theorem byteAt_of_ge {b : Bytes} {k : Nat} (h : b.length ≤ k) : byteAt b k = none := List.getElem?_eq_none h

/-! ## The capacities -/

theorem wf_of_eq {P : Platform} {s t : State} (h : Memory.wf P s) (hi : t.ibuf = s.ibuf) (ho : t.obuf = s.obuf) :
    Memory.wf P t := by
  simpa [Memory.wf, hi, ho] using h

theorem wf_of_empty {P : Platform} {s t : State} (h : Memory.wf P s) (hi : t.ibuf = s.ibuf) (ho : t.obuf = []) :
    Memory.wf P t := by
  refine ⟨by rw [hi]; exact h.1, by rw [ho]; simp⟩

theorem wf_resetWith (P : Platform) (le : Nat) : Memory.wf P (State.resetWith le) := by
  simp [Memory.wf, State.resetWith]

theorem wf_reset : Memory.wf Config.platform State.reset := wf_resetWith _ _

theorem wf_issue {P : Platform} {s : State} (w : Word) (h : Memory.wf P s) : Memory.wf P (s.issue w) :=
  wf_of_empty h rfl rfl

theorem wf_raise {P : Platform} {s : State} (e : ErrCode) (h : Memory.wf P s) : Memory.wf P (s.raise e) :=
  wf_of_empty h rfl rfl

theorem wf_complete {P : Platform} {s : State} (h : Memory.wf P s) : Memory.wf P s.complete := wf_of_eq h rfl rfl

theorem wf_loadMove {P : Platform} {b : Bytes} {s t : State} (h : Memory.wf P s) (hm : loadMove P b s = .next t) :
    Memory.wf P t := by
  obtain ⟨_, hb, rfl⟩ := loadMove_next hm
  exact ⟨hb, h.2⟩

theorem wf_clearCheck {P : Platform} {s : State} (h : Memory.wf P s) : Memory.wf P (clearCheck s) := by
  refine ⟨by simp [clearCheck], ?_⟩
  simpa [clearCheck] using h.2

/-- An append that stays within the capacity keeps it. -/
theorem wf_appendOut {P : Platform} {v : Bytes} {s : State} (h : Memory.wf P s)
    (hr : s.obuf.length + v.length ≤ max (P.lenMax + 16) 65535) : Memory.wf P (s.appendOut v) := by
  refine ⟨h.1, ?_⟩
  simpa using hr

/-- The output of the block loop fits OBUF: at most one block more than IBUF (R52, R142). -/
theorem blockCount_room {P : Platform} {m : Mode} {d : Dir} {n : Nat} (h : n ≤ P.lenMax) :
    16 * blockCount m d n ≤ max (P.lenMax + 16) 65535 := by
  refine le_trans ?_ (le_max_left _ _)
  unfold blockCount
  cases padded m <;> cases d <;> simp only [if_true, if_false, Bool.false_eq_true] <;> omega

/-- A STEP function answers at most 16 bytes. -/
theorem blockStepOf_out_le {P : Platform} {m : Mode} {d : Dir} {s : State} {i : Nat} {out : Bytes} {fb : Block}
    (h : blockStepOf m d P s i = some (out, fb)) : out.length ≤ 16 := by
  have hs : (streamUnit s.ibuf i).length ≤ 16 := by
    rw [streamUnit_eq]
    simp
  cases m <;> cases d <;>
    simp only [blockStepOf, stepEcbEnc, stepEcbDec, stepCbcEnc, stepCbcDec, stepCfbEnc, stepCfbDec, stepOfb, stepCtr] at h <;>
    split at h <;> simp only [Option.some.injEq, Prod.mk.injEq, reduceCtorEq] at h <;> rename_i k _ <;>
    rw [← h.1] <;> simp [k.property, (xorBlock k s.fb).property]

end Sys2Proof.Machine
end

