-- ==== Sys2Proof/Laws/PerInstr.lean ====
section
/-! SUPPORT. For every instruction: the fields of its word are the ones R71 to R73 give it. -/

namespace Sys2Proof.Laws.WordFormat

/-- The word of `i` has the opcode of R73 in OP, its AUTOIV bit and its count in their fields, and zero in RSV (R71, R72). -/
def Statement (i : Instr) : Prop :=
  opField (encode i) = i.opcode ∧ autoivField (encode i) = i.autoivBit ∧ rsvField (encode i) = 0 ∧
    countField (encode i) = i.countBits

theorem clear : Statement .clear := by simp [Statement]
theorem keyld : Statement .keyld := by simp [Statement]
theorem ivld : Statement .ivld := by simp [Statement]
theorem ecbEnc (a : Bool) : Statement (.ecbEnc a) := by simp [Statement]
theorem ecbDec (a : Bool) : Statement (.ecbDec a) := by simp [Statement]
theorem cbcEnc (a : Bool) : Statement (.cbcEnc a) := by simp [Statement]
theorem cbcDec (a : Bool) : Statement (.cbcDec a) := by simp [Statement]
theorem cfbEnc (a : Bool) : Statement (.cfbEnc a) := by simp [Statement]
theorem cfbDec (a : Bool) : Statement (.cfbDec a) := by simp [Statement]
theorem ofbEnc (a : Bool) : Statement (.ofbEnc a) := by simp [Statement]
theorem ofbDec (a : Bool) : Statement (.ofbDec a) := by simp [Statement]
theorem ctrEnc (a : Bool) : Statement (.ctrEnc a) := by simp [Statement]
theorem ctrDec (a : Bool) : Statement (.ctrDec a) := by simp [Statement]
theorem kdf : Statement .kdf := by simp [Statement]
theorem rng (n : Nat) : Statement (.rng n) := by simp [Statement]

end Sys2Proof.Laws.WordFormat
end

