-- ==== Sys2Proof/Laws/Sequencer.lean ====
section
/-! SUPPORT. Runs of the sequencer (R175): runs in a row, and a phase loop as a run. -/

namespace Sys2Proof.Machine

/-- A run of `m + n` steps is a run of `m` and then one of `n`. -/
theorem sequencerRun_add (P : Platform) (m n : Nat) (s t : State) (h : sequencerRun P m s = .next t) :
    sequencerRun P (m + n) s = sequencerRun P n t := by
  induction m generalizing s with
  | zero =>
    cases h
    rw [Nat.zero_add]
  | succ m ih =>
    rw [Nat.succ_add, sequencerRun]
    rw [sequencerRun] at h
    split at h
    · rename_i u hu
      exact ih u h
    · cases h
    · cases h

/-- What a run reaches, a longer run from the same state reaches on the way. -/
theorem sequencerRun_trans {P : Platform} {s t u : State} (h : ∃ n, sequencerRun P n s = .next t)
    (h' : ∃ n, sequencerRun P n t = .next u) : ∃ n, sequencerRun P n s = .next u := by
  obtain ⟨m, hm⟩ := h
  obtain ⟨n, hn⟩ := h'
  exact ⟨m + n, by rw [sequencerRun_add P m n s t hm, hn]⟩

theorem sequencerRun_one {P : Platform} {s t : State} (h : sequencerTurn P s = .next t) :
    ∃ n, sequencerRun P n s = .next t := ⟨1, by simp [sequencerRun, h]⟩

/-- A phase loop is a run, when in that phase, with this word in CUR, the sequencer's step is the loop's step. -/
theorem sequencerRun_whilePhase {P : Platform} {ph : Phase} {f : State → State} {w : Word}
    (hf : ∀ s, s.phase = ph → s.cur = w → sequencerTurn P s = .next (f s) ∧ (f s).cur = w) :
    ∀ (k : Nat) (s : State), s.cur = w → ∃ n, sequencerRun P n s = .next (whilePhase ph f k s) ∧ (whilePhase ph f k s).cur = w
  | 0, s, hc => ⟨0, rfl, hc⟩
  | k + 1, s, hc => by
    by_cases hp : s.phase = ph
    · obtain ⟨h1, h2⟩ := hf s hp hc
      obtain ⟨n, hn, hw⟩ := sequencerRun_whilePhase hf k (f s) h2
      rw [whilePhase_succ hp]
      obtain ⟨j, hj⟩ := sequencerRun_trans (sequencerRun_one h1) ⟨n, hn⟩
      exact ⟨j, hj, hw⟩
    · rw [whilePhase_of_ne hp]
      exact ⟨0, rfl, hc⟩

/-! CUR is written by no phase step. -/

@[simp] theorem cipherCheck_cur (m : Mode) (d : Dir) (a : Bool) (s : State) : (cipherCheck m d a s).cur = s.cur := by
  rcases cipherCheck_cases m d a s with ⟨_, h⟩ | ⟨_, _, _, _, h⟩ | ⟨_, _, _, _, _, h⟩ | ⟨_, _, _, _, _, h⟩ | ⟨_, _, _, h⟩ <;>
    simp [h]

@[simp] theorem ivgenStep_cur (P : Platform) (m : Mode) (s : State) : (ivgenStep P m s).cur = s.cur := by
  rcases ivgenStep_cases P m s with ⟨v, e, _, h⟩ | ⟨e, _, h⟩ <;> simp [h]

@[simp] theorem runStep_cur (P : Platform) (m : Mode) (d : Dir) (f : BlockStep) (s : State) :
    (runStep P m d f s).cur = s.cur := by
  rcases runStep_cases P m d f s with ⟨_, _, h⟩ | ⟨_, _, _, _, h⟩ | ⟨_, h⟩ <;> simp [h]

@[simp] theorem finalStep_cur (m : Mode) (d : Dir) (s : State) : (finalStep m d s).cur = s.cur := by
  rcases finalStep_cases m d s with ⟨_, h⟩ | ⟨_, _, _, h⟩ | ⟨_, _, _, _, h⟩ <;> simp [h]

@[simp] theorem kinitStep_cur (P : Platform) (s : State) : (kinitStep P s).cur = s.cur := by
  rcases kinitStep_cases P s with ⟨_, h⟩ | ⟨_, _, h⟩ <;> simp [h]

@[simp] theorem krunStep_cur (P : Platform) (s : State) : (krunStep P s).cur = s.cur := by
  rcases krunStep_cases P s with ⟨_, _, h⟩ | ⟨_, _, _, h⟩ | ⟨_, h⟩ <;> simp [h]

@[simp] theorem koutStep_cur (s : State) : (koutStep s).cur = s.cur := rfl

@[simp] theorem genStep_cur (P : Platform) (n : Nat) (s : State) : (genStep P n s).cur = s.cur := by
  rcases genStep_cases P n s with ⟨_, _, _, h⟩ | ⟨_, _, _, _, h⟩ | ⟨_, h⟩ <;> simp [h]

end Sys2Proof.Machine
end

