-- ==== Sys2Proof/Tests/Slice0.lean ====
section
/-! SUPPORT. The model's own tests. Expected values come from spec/95_test_vectors.md (the section is named), from
spec/49_appendix_sha512.md R208, or from the words of R73. The last part shows, for every statement with hypotheses, a concrete
state and operands that meet them. -/

namespace Sys2Proof.Tests

open Sys2Proof.Machine

/-! ## WellFormed: the ill-formed term of its one check, refused -/

theorem test_wellFormed_refuses_long_count : (Instr.rng 65536).wellFormed = false := by decide
theorem test_wellFormed_admits_last_count : (Instr.rng 65535).wellFormed = true := by decide

/-! ## Decoding: one word written out for every constructor (R73; §3.9 to §3.11, P1 to P6) -/

/-- `w` decodes to `i`, and `i` encodes to `w`. -/
def Word.stands (w : Word) (i : Instr) : Prop := decode w = .ok i ∧ encode i = w

theorem test_decode_clear : Word.stands 0x00000001 .clear := ⟨by rfl, by decide⟩
theorem test_decode_keyld : Word.stands 0x00000002 .keyld := ⟨by rfl, by decide⟩
theorem test_decode_ivld : Word.stands 0x00000003 .ivld := ⟨by rfl, by decide⟩
theorem test_decode_ecbEnc : Word.stands 0x00000010 (.ecbEnc false) := ⟨by rfl, by decide⟩
theorem test_decode_ecbDec : Word.stands 0x00000111 (.ecbDec true) := ⟨by rfl, by decide⟩
theorem test_decode_cbcEnc : Word.stands 0x00000112 (.cbcEnc true) := ⟨by rfl, by decide⟩
theorem test_decode_cbcDec : Word.stands 0x00000013 (.cbcDec false) := ⟨by rfl, by decide⟩
theorem test_decode_cfbEnc : Word.stands 0x00000014 (.cfbEnc false) := ⟨by rfl, by decide⟩
theorem test_decode_cfbDec : Word.stands 0x00000015 (.cfbDec false) := ⟨by rfl, by decide⟩
theorem test_decode_ofbEnc : Word.stands 0x00000016 (.ofbEnc false) := ⟨by rfl, by decide⟩
theorem test_decode_ofbDec : Word.stands 0x00000017 (.ofbDec false) := ⟨by rfl, by decide⟩
theorem test_decode_ctrEnc : Word.stands 0x00000118 (.ctrEnc true) := ⟨by rfl, by decide⟩
theorem test_decode_ctrDec : Word.stands 0x00000019 (.ctrDec false) := ⟨by rfl, by decide⟩
theorem test_decode_kdf : Word.stands 0x00000020 .kdf := ⟨by rfl, by decide⟩
theorem test_decode_rng : Word.stands 0x007D0030 (.rng 125) := ⟨by rfl, by decide⟩

/-- §3.10: words that are not commands, with the code each raises. -/
def refusedAs (w : Word) : Option Byte :=
  match decode w with
  | .ok _ => none
  | .error e => some (decodeErrCode e).code

theorem test_decode_illegal :
    [0x00000000, 0x00000040, 0x00000004, 0x0000000F, 0x00000021, 0x00000031, 0x000000FF, 0x00000212, 0x00008001, 0x00010002,
      0x00000101, 0x00010010, 0x0001021B, 0x00000130, 0x00000120, 0x00010020].all (refusedAs · = some 1) = true := by
  decide

theorem test_decode_unsupported_mode :
    [0x0000001A, 0x0000001B, 0x0000001C, 0x0000001D, 0x0000001E, 0x0000001F, 0x0000011C].all (refusedAs · = some 2) = true := by
  decide

theorem test_decodeTableWord : decodeTableWord 32 0x00050030 = some (.rng 5) := by decide

/-! ## The toy platform of §2 -/

/-- `E_T` of §2.1. -/
def toyEnc (k : Bytes) (b : Block) : Block :=
  let y := (List.range 16).map fun j =>
    7 * (b.val.getD j 0 ^^^ k.getD j 0 ^^^ k.getD (k.length - 1 - j) 0) + BitVec.ofNat 8 (13 * j + 0x5B)
  toReg 16 (y.drop 1 ++ y.take 1)

/-- `D_T` of §2.1. -/
def toyDec (k : Bytes) (c : Block) : Block :=
  let y := c.val.drop 15 ++ c.val.take 15
  toReg 16 ((List.range 16).map fun j =>
    (183 * (y.getD j 0 - BitVec.ofNat 8 (13 * j + 0x5B))) ^^^ k.getD j 0 ^^^ k.getD (k.length - 1 - j) 0)

/-- `EDIGEST_T` of §2.2. -/
def toyDigest (cnt mem ts : Nat) : ByteReg 20 :=
  ⟨(List.range 20).map fun k => BitVec.ofNat 8 ((((cnt ^^^ mem) * (ts ||| 1)) % 2 ^ 32) >>> k), by simp⟩

/-- The stand-ins of §2 with `ENV` answering as in §3.1. -/
def toy : Platform where
  enc := fun k b => some (toyEnc k b)
  dec := fun k b => some (toyDec k b)
  h512 := fun m => some (Sha512.hash m)
  le := 20
  le_ge := Nat.le_refl 20
  edigest := fun c m t => some (toyDigest c m t)
  fallbackMem := 0
  fallbackTs := 0
  lenMax := 2000
  lenMax_ge := by decide
  envMem := fun _ => some 0x1234
  envTs := fun _ => some 0x0F0F
  busyCount := fun _ => 0
  busyKrnd := fun _ => 0
  busyBlock := fun _ => 0
  busyBytes := fun _ => []

/-- §3.12: `E` answers FAIL on the block that P32's second CBC step gives it. -/
def toyBlkFail : Platform :=
  { toy with enc := fun k b => if b.val = bigEndian 16 0x575b6f7b071366544edf31d32d2f0934 then none else some (toyEnc k b) }

/-- §3.1: EDIGEST answers FAIL from the call with counter value `c` on. -/
def toyHashFail (c : Nat) : Platform :=
  { toy with edigest := fun cnt m t => if c ≤ cnt then none else some (toyDigest cnt m t) }

/-- The reset state on a platform with `LE = 20`. -/
def start : State := State.resetWith 20

/-- K16 of file 95. -/
def k16 : Bytes := bigEndian 16 0x000102030405060708090a0b0c0d0e0f

/-- IV1 of file 95. -/
def iv1 : Block := toBE128 0xf0f1f2f3f4f5f6f7f8f9fafbfcfdfeff

/-- P20 of file 95. -/
def p20 : Bytes := bigEndian 20 0x4142434445464748494a4b4c4d4e4f5051525354

/-- K16 loaded, `b` in IBUF. -/
def keyed (b : Bytes) : State := { start with key := toReg 32 k16, klen := .b16, ibuf := b }

/-- K16 and IV1 loaded, `b` in IBUF. -/
def ready (b : Bytes) : State := { keyed b with iv := iv1, ivv := true }

/-! ## The façade commands (§3.9) -/

theorem test_keyld_status_and_key :
    let t := keyldCheck ({ start with ibuf := k16 }.issue (encode .keyld))
    statusWord t = 0x52 ∧ t.key.val = k16 ++ List.replicate 16 0 := by
  decide
theorem test_keyld_bad_length_removes_key :
    let t := keyldCheck ((keyed (List.replicate 15 0)).issue (encode .keyld))
    t.errcode = 0x0203 ∧ t.klen = .none ∧ statusWord t = 0x06 := by
  decide
theorem test_ivld_status : statusWord (ivldCheck ((keyed iv1.val).issue (encode .ivld))) = 0x72 := by decide
theorem test_ivld_bad_length_removes_iv :
    let t := ivldCheck ((ready (List.replicate 15 0)).issue (encode .ivld))
    t.errcode = 0x0304 ∧ t.ivv = false ∧ t.iv.val = List.replicate 16 0 := by
  decide
theorem test_clear :
    let t := clearCheck ((ready p20).issue (encode .clear))
    statusWord t = 0x02 ∧ t.cur = 1 ∧ t.ibuf = [] ∧ t.iv.val = List.replicate 16 0 := by
  decide

/-! ## The cipher commands (§3.4 to §3.8, §3.10 to §3.12) -/

theorem test_ecbEnc :
    (ecbEncOn toy false (ready p20)).obuf = bigEndian 32 0x83898f959ba1a7adb3b9bfc5cbd1b77df3f9ffa4b1becbd8e5f2ff0c192633ed := by
  decide
theorem test_ecbDec :
    (ecbDecOn toy false (keyed (bigEndian 32 0x83898f959ba1a7adb3b9bfc5cbd1b77df3f9ffa4b1becbd8e5f2ff0c192633ed))).obuf = p20 := by
  decide
theorem test_ecbDec_pad_error :
    let t := ecbDecOn toy false (keyed (bigEndian 16 0x414e5b6875828f9ca9b6c3d0ddea1e34))
    t.errcode = 0x1107 ∧ t.obuf = [] ∧ t.blkidx = 1 := by
  decide
theorem test_cbcEnc :
    let t := cbcEncOn toy false (ready p20)
    t.obuf = bigEndian 32 0x8ca78ac1c0db86f5f40ff22928437e8d3e4fb8e4844c708424741024c47c0019 ∧ statusWord t = 0x72 := by
  decide
theorem test_cbcEnc_blk_error :
    let t := cbcEncOn toyBlkFail false (ready (bigEndian 32 0x3031323334353637383961626364656646454443424139383736353433323130))
    t.errcode = 0x1208 ∧ t.blkidx = 1 ∧ t.fb.val = bigEndian 16 0x111e2b3845525f6c79e904e71e1d3804 := by
  decide
theorem test_cbcDec :
    (cbcDecOn toy false (ready (bigEndian 32 0x8ca78ac1c0db86f5f40ff22928437e8d3e4fb8e4844c708424741024c47c0019))).obuf = p20 := by
  decide
theorem test_cbcDec_checks_in_order :
    (cbcDecOn toy false { start with ibuf := List.replicate 5 0 }).errcode = 0x1303 ∧
    (cbcDecOn toy false (keyed (List.replicate 5 0))).errcode = 0x1305 ∧
    (cbcDecOn toy true (keyed (List.replicate 5 0))).errcode = 0x1306 := by
  decide
theorem test_cfbEnc :
    let t := cfbEncOn toy false (ready p20)
    t.obuf = bigEndian 20 0x1b222528373e39ccc3daddd0efe6e104f2c9c043 ∧ t.fb.val = bigEndian 16 0x1b222528373e39ccc3daddd0efe6e104 := by
  decide
theorem test_cfbDec :
    let t := cfbDecOn toy false (ready (bigEndian 20 0x1b222528373e39ccc3daddd0efe6e104f2c9c043))
    t.obuf = p20 ∧ t.fb.val = bigEndian 16 0x1b222528373e39ccc3daddd0efe6e104 := by
  decide
theorem test_ofbEnc :
    let t := ofbEncOn toy false (ready p20)
    t.obuf = bigEndian 20 0x1b222528373e39ccc3daddd0efe6e104200664ae ∧ t.fb.val = bigEndian 16 0x715437faddc08366290cefb295789bae := by
  decide
theorem test_ofbDec_no_iv : (ofbDecOn toy false (keyed [])).errcode = 0x1705 := by decide
theorem test_ctrEnc :
    let t := ctrEncOn toy false (ready p20)
    t.obuf = bigEndian 20 0x1b222528373e39ccc3daddd0efe6e1040b323538 ∧ t.fb.val = bigEndian 16 0xf0f1f2f3f4f5f6f7f8f9fafbfcfdff01 := by
  decide
/-- P5: the counter wraps modulo 2^128. -/
theorem test_ctrDec_wraps :
    let t := ctrDecOn toy false { ready (List.replicate 33 0) with iv := toBE128 (2 ^ 128 - 1) }
    t.fb.val = bigEndian 16 2 ∧ t.blkidx = 3 ∧
      t.obuf = bigEndian 33 0xf805121f2c394653606d7a8794a1aeebd1deebf805121f2c394653606d7a87c4d1 := by
  decide
/-- P2, line 4, from the reset generator with the readings of §3.1: the first 16 bytes of the stream become the IV. -/
theorem test_autoiv_generates :
    let t := ctrEncOn toy true (keyed p20)
    t.iv.val = bigEndian 16 0x30b84d834454dc49c5240b078fbf7877 ∧ t.ivv = true ∧ t.ent.ecnt = 7 ∧ t.ent.edpos = 8 := by
  decide
/-- §3.11: the third hash call of the generation fails (there in CBC, here in CFB). -/
theorem test_autoiv_hash_error :
    let t := cfbEncOn (toyHashFail 2) true (keyed p20)
    t.errcode = 0x1409 ∧ t.ivv = false ∧ t.ent.ecnt = 2 ∧ t.ent.ebits = 40 ∧ t.ent.edpos = 20 := by
  decide

/-! ## KDF (§3.2) and SHA-512 (R208) -/

/-- SHA-512 of "abc". -/
theorem test_sha512_abc : (Sha512.hash [0x61, 0x62, 0x63]).val = bigEndian 64
    0xddaf35a193617abacc417349ae20413112e6fa4e89a97ea20a9eeee64b55d39a2192992a274fc1a836ba3c23a3feebbd454d4423643ce80e2a9ac94fa54ca49f := by
  decide +kernel
/-- R204: each constant is the first 64 bits of the fractional part of the cube root of a prime, checked on integers: with `f` the
whole part of the root and `c` the constant, `(f * 2^64 + c)^3 <= p * 2^192 < (f * 2^64 + c + 1)^3`. The first and last four. -/
theorem test_round_constants_are_cube_roots :
    Sha512.roundConstants.length = 80 ∧
    ([(2, 1), (3, 1), (5, 1), (7, 1)].zip (Sha512.roundConstants.take 4) ++
      [(389, 7), (397, 7), (401, 7), (409, 7)].zip (Sha512.roundConstants.drop 76)).all (fun r =>
        (r.1.2 * 2 ^ 64 + r.2.toNat) ^ 3 ≤ r.1.1 * 2 ^ 192 ∧ r.1.1 * 2 ^ 192 < (r.1.2 * 2 ^ 64 + r.2.toNat + 1) ^ 3) = true := by
  decide
theorem test_kxf_bytes :
    kxfByte 99999 0 0x01 = 0x97 ∧ kxfByte 99999 7 0x01 = 0x05 ∧ kxfByte 256 1 0x80 = 0x84 ∧ kxfByte 65536 15 0xa5 = 0x2d := by
  decide
/-- The fixed vector's operand "test" followed by 16 zero bytes: KST after KINIT and after iteration 0. -/
theorem test_kdf_first_iteration :
    let t := krunStep toy (kinitStep toy (kdfCheck
      ({ start with ibuf := [0x74, 0x65, 0x73, 0x74] ++ List.replicate 16 0 }.issue (encode .kdf))))
    t.krnd = 1 ∧ t.kst.val = bigEndian 64
      0xf95d5a9330a02cf2c7a77315dee3b42b39667be0fe6b83159657278e8d28ae75723746d08ebc7af15f371030858877b17ad305b0fd16c95ef9d86f03f4345fa7 := by
  decide +kernel

/-! ## RNG (§3.1): the third byte crosses a hash call -/

theorem test_rng :
    let t := rngOn toy 5 start
    t.obuf = bigEndian 5 0x30b84d8344 ∧ t.ent.ecnt = 2 ∧ t.ent.edpos = 20 ∧ t.ent.ebits = 40 := by
  decide
theorem test_rng_hash_error :
    let t := rngOn (toyHashFail 1) 5 start
    t.errcode = 0x3009 ∧ t.obuf = [] ∧ t.ent.ecnt = 1 ∧ t.ent.edpos = 20 ∧ t.ent.ebits = 20 := by
  decide

/-! ## The step and the host moves (§3.10, §3.13) -/

/-- A command word placed for the next step is decoded and run by it. -/
theorem test_step_runs_placed_word (s : State) :
    step (s.withFetchWord 32 0x00000001) = exec .clear { s with busy := false, phase := .idle } := by rfl

/-- CLEAR with AUTOIV is no command, and nothing is cleared. -/
theorem test_step_illegal_word :
    step ((ready p20).withFetchWord 32 0x00000101) =
      .next (((ready p20).issue 0x00000101).raise .cmd) := by rfl

theorem test_busy_status_and_ovr :
    let s := (ready p20).issue 0x00000012
    statusWord s = 0x71 ∧ statusWord { s with ovr := true } = 0x79 := by
  decide

/-! ## Witnesses: the hypotheses of each statement are met, clause by clause -/

/-- A primitive that satisfies BLK_INV and BLK_NOFAIL (R13): the identity. -/
def copy : Platform := { toy with enc := fun _ b => some b, dec := fun _ b => some b }

/-- A platform whose hashes never answer. -/
def noHash : Platform := { toy with edigest := fun _ _ _ => none, h512 := fun _ => none }

/-- A state with the given pending moves, not BUSY. -/
def idle (ms : List Move) : State := { start with moves := ms }

/-- A state with the given pending moves, BUSY. -/
def working (ms : List Move) : State := { start.issue 0x00000012 with moves := ms }

theorem copy_blkInv : copy.BlkInv := by
  intro k x y _
  simp [copy, eq_comm]

theorem copy_blkNoFail : copy.BlkNoFail := by
  intro k x _
  simp [copy]

theorem witness_DecodeOfEncodeIsIdentity : (Instr.rng 0).WellFormed ∧ (Instr.rng 65535).WellFormed := by decide
theorem witness_EncodeOfDecodeIsIdentity : decode 0xFFFF0030 = .ok (.rng 65535) ∧ decode 0x00000119 = .ok (.ctrDec true) :=
  ⟨by rfl, by rfl⟩
theorem witness_StepRunsTheDecodedCommand :
    (idle [.cmd 0x00000020]).moves = .cmd 0x00000020 :: [] ∧ (idle [.cmd 0x00000020]).busy = false ∧
      (idle [.write 0 0x00000020]).moves = .write 0 0x00000020 :: [] ∧ (idle [.write 0 0x00000020]).busy = false ∧
      decode 0x00000020 = .ok .kdf := ⟨rfl, rfl, rfl, rfl, by rfl⟩
theorem witness_StepEndsNonCommandsWithTheirError :
    (idle [.cmd 0]).moves = .cmd 0 :: [] ∧ (idle [.cmd 0]).busy = false ∧ decode 0 = .error .illegal ∧
      (idle [.cmd 0x1A]).moves = .cmd 0x1A :: [] ∧ decode 0x1A = .error .unsupportedMode ∧
      (idle [.write 0 0]).moves = .write 0 0 :: [] ∧ (idle [.write 0 0x1A]).moves = .write 0 0x1A :: [] :=
  ⟨rfl, rfl, by rfl, rfl, by rfl, rfl, rfl⟩
theorem witness_CommandWhileBusyIsDropped :
    (working [.cmd 1]).busy = true ∧ (working [.cmd 1]).moves = .cmd 1 :: [] ∧
      (working [.cmdPhased 1]).moves = .cmdPhased 1 :: [] ∧ (working [.write 0 1]).moves = .write 0 1 :: [] :=
  ⟨rfl, rfl, rfl, rfl⟩
theorem witness_IssueWritesExactlyItsState :
    (idle [.cmdPhased 0x12]).moves = .cmdPhased 0x12 :: [] ∧ (idle [.cmdPhased 0x12]).busy = false := ⟨rfl, rfl⟩

/-- The longest load, and one byte more. -/
def longest (extra : Nat) : Bytes := List.replicate (Config.platform.lenMax + extra) 0

theorem witness_LoadReplacesTheInputBuffer :
    (idle [.load (longest 0)]).moves = .load (longest 0) :: [] ∧ (idle [.load (longest 0)]).busy = false ∧
      (longest 0).length ≤ Config.platform.lenMax ∧ (working [.load []]).moves = .load [] :: [] ∧
      (working [.load []]).busy = true ∧ (idle [.load (longest 1)]).moves = .load (longest 1) :: [] ∧
      Config.platform.lenMax < (longest 1).length := by
  refine ⟨rfl, rfl, ?_, rfl, rfl, rfl, ?_⟩ <;> simp [longest]
theorem witness_ReadsReturnTheRegisters :
    (idle [.read 9]).busy = false ∧ (idle [.read 9]).moves = .read 9 :: [] ∧ (idle [.read 10]).moves = .read 10 :: [] ∧
      (idle [.readout]).moves = .readout :: [] := ⟨rfl, rfl, rfl, rfl⟩
theorem witness_BusyReadsOfStatusErrcodeCurAreExact :
    (∀ n ∈ [0, 1, 2, 3, 4, 5, 6, 7, 8, 9, 10], (working [.read n]).busy = true ∧ (working [.read n]).moves = .read n :: []) ∧
      (working [.readout]).busy = true ∧ (working [.readout]).moves = .readout :: [] := by decide
theorem witness_WritesToOtherRegistersAreIgnored :
    (1 : Nat) ≠ 0 ∧ (idle [.write 1 5]).moves = .write 1 5 :: [] ∧ (working [.write 9 5]).moves = .write 9 5 :: [] :=
  ⟨by decide, rfl, rfl⟩
theorem witness_ResetMoveGivesTheResetState :
    (working [.reset]).moves = .reset :: [] ∧ (idle [.reset]).moves = .reset :: [] := ⟨rfl, rfl⟩

/-- A state with the invariants in the middle of a command: KDF issued after reset. -/
def kdfIssued : State := State.reset.issue 0x00000020

theorem kdfIssued_inv : Inv Config.platform kdfIssued := by
  have h : Memory.wf Config.platform kdfIssued := wf_issue _ wf_reset
  constructor <;> first
    | exact h
    | simp [kdfIssued, State.reset, State.resetWith, ByteReg.zero, KeyLen.toNat, Entropy.reset, Config.platform, phaseOk]

theorem witness_StepKeepsTheInvariants :
    Inv Config.platform kdfIssued ∧ step kdfIssued = .next { kdfIssued with phase := .kinit } := ⟨kdfIssued_inv, by rfl⟩
theorem witness_InvariantStatesNeverFault : Inv Config.platform kdfIssued := kdfIssued_inv
theorem witness_OnlyTheNamedCommandsWriteEachRegister :
    exec (.rng 0) start = .next (rngOn Config.platform 0 start) ∧
      exec (.ecbEnc false) start = .next (ecbEncOn Config.platform false start) ∧ Instr.autoivBit (.ecbEnc false) = false ∧
      (∀ m d a, Instr.ecbEnc false = Instr.ofCipher m d a → m = .ecb) := by
  refine ⟨rfl, rfl, rfl, ?_⟩
  intro m d a h
  cases m <;> cases d <;> first | rfl | simp [Instr.ofCipher] at h

theorem witness_KeyldLoadsOrRemovesTheKey :
    { start with ibuf := k16 }.ibuf.length = 16 ∧ { start with ibuf := List.replicate 24 0 }.ibuf.length = 24 ∧
      { start with ibuf := List.replicate 32 0 }.ibuf.length = 32 ∧
      ∀ n ∈ [0, 15, 17, 23, 25, 31, 33], ¬ (({ start with ibuf := List.replicate n 0 }.ibuf.length = 16 ∨
        { start with ibuf := List.replicate n 0 }.ibuf.length = 24 ∨ { start with ibuf := List.replicate n 0 }.ibuf.length = 32)) := by
  decide
theorem witness_IvldLoadsOrRemovesTheIv :
    { start with ibuf := k16 }.ibuf.length = 16 ∧ { start with ibuf := List.replicate 15 0 }.ibuf.length ≠ 16 ∧
      { start with ibuf := List.replicate 17 0 }.ibuf.length ≠ 16 := by decide
theorem witness_KeyAndIvAreCheckedFirst :
    start.klen = .none ∧ (keyed []).klen ≠ .none ∧ Mode.cbc ≠ .ecb ∧ (keyed []).ivv = false := by decide
theorem witness_MisalignedPaddedDecryptRaisesAlign :
    (keyed (List.replicate 1 0)).klen ≠ .none ∧ (keyed (List.replicate 1 0)).ibuf.length % 16 ≠ 0 ∧
      (keyed (List.replicate 15 0)).ibuf.length % 16 ≠ 0 ∧ (ready (List.replicate 17 0)).klen ≠ .none ∧
      (ready (List.replicate 17 0)).ibuf.length % 16 ≠ 0 ∧ (ready (List.replicate 17 0)).ivv = true ∧ (keyed []).klen ≠ .none ∧
      (keyed []).ibuf = [] ∧ (ready []).klen ≠ .none ∧ (ready []).ibuf = [] ∧ (ready []).ivv = true := by decide
theorem witness_AutoIvGeneratesTheIv :
    (keyed []).klen ≠ .none ∧ Mode.cbc ≠ .ecb ∧ (keyed []).ivv = false ∧ (keyed []).ibuf.length % 16 = 0 ∧
      (∃ v e, entBytes toy 16 (keyed []).ent = .got v e) ∧ (∃ e, entBytes noHash 16 (keyed []).ent = .failed e) :=
  ⟨by decide, by decide, rfl, rfl, ⟨_, _, by rfl⟩, ⟨_, by rfl⟩⟩
theorem witness_AutoIvIsIgnoredWhenNotNeeded : (ready p20).ivv = true := rfl
theorem witness_EcbEncResult : (keyed p20).klen ≠ .none := by decide
theorem witness_EcbDecResult :
    (keyed []).klen ≠ .none ∧ (keyed []).ibuf.length % 16 = 0 ∧ (keyed (List.replicate 32 0)).ibuf.length % 16 = 0 := by decide
theorem witness_CbcEncResult : (ready p20).klen ≠ .none ∧ (ready p20).ivv = true := by decide
theorem witness_CbcDecResult :
    (ready (List.replicate 16 0)).klen ≠ .none ∧ (ready (List.replicate 16 0)).ivv = true ∧
      (ready (List.replicate 16 0)).ibuf.length % 16 = 0 := by decide
theorem witness_CfbEncResult : (ready p20).klen ≠ .none ∧ (ready p20).ivv = true := by decide
theorem witness_CfbDecResult : (ready p20).klen ≠ .none ∧ (ready p20).ivv = true := by decide
theorem witness_OfbResult :
    (Instr.ofbDec true = .ofbEnc true ∨ Instr.ofbDec true = .ofbDec true) ∧ (ready p20).klen ≠ .none ∧ (ready p20).ivv = true := by
  decide
theorem witness_CtrResult :
    (Instr.ctrEnc true = .ctrEnc true ∨ Instr.ctrEnc true = .ctrDec true) ∧ (ready p20).klen ≠ .none ∧ (ready p20).ivv = true := by
  decide
theorem witness_CtrCounterAfterTheCommand :
    (ready p20).ivv = true ∧ (perform toy (.ctrEnc false) (ready p20)).err = false ∧
      (perform toy (.ctrDec false) (ready [])).err = false := by
  decide
theorem witness_KeystreamDoesNotDependOnTheData :
    (ready p20).ivv = true ∧ (List.replicate 20 (0 : Byte)).length = (ready p20).ibuf.length ∧
      (perform toy (Instr.ofCipher .ofb .enc false) (ready p20)).err = false ∧
      (perform toy (Instr.ofCipher .ctr .dec false) (ready p20)).err = false := by
  decide
theorem witness_UnpadStripsExactlyValidPadding :
    (pad p20).length % 16 = 0 ∧ unpad (pad p20) = some p20 ∧ (List.replicate 16 (0 : Byte)).length % 16 = 0 ∧
      unpad (List.replicate 16 0) = none := by
  decide
theorem witness_OutputLengths :
    (perform toy (Instr.ofCipher .ecb .enc false) (ready p20)).err = false ∧
      (perform copy (Instr.ofCipher .cbc .dec false) { ready (List.replicate 16 16) with iv := ByteReg.zero 16 }).err = false ∧
      (perform toy (Instr.ofCipher .cfb .dec false) (ready p20)).err = false := by
  decide
theorem witness_PaddedRoundTrip :
    copy.BlkInv ∧ copy.BlkNoFail ∧ padded .cbc = true ∧ (ready p20).klen ≠ .none ∧ (ready p20).ivv = true ∧
      (perform copy (Instr.ofCipher .ecb .dec false) (ready (List.replicate 16 16))).err = false :=
  ⟨copy_blkInv, copy_blkNoFail, rfl, by decide, rfl, by decide⟩
theorem witness_StreamRoundTrip :
    padded .cfb = false ∧ (ready []).klen ≠ .none ∧ (ready []).ivv = true ∧ copy.BlkNoFail ∧ (ready []).ibuf = [] :=
  ⟨rfl, by decide, rfl, copy_blkNoFail, rfl⟩
theorem witness_OfbAndCtrAreSelfInverse :
    (ready p20).ivv = true ∧ (perform toy (Instr.ofCipher .ofb .enc false) (ready p20)).err = false ∧
      (perform toy (Instr.ofCipher .ctr .dec true) (ready p20)).err = false := by
  decide
theorem witness_CbcTamperSpansTwoBlocks :
    copy.BlkNoFail ∧ { ready (List.replicate 48 1) with phase := .run }.klen ≠ .none ∧
      { ready (List.replicate 48 1) with phase := .run }.phase = .run ∧
      { ready (List.replicate 48 1) with phase := .run }.blkidx = 0 ∧
      { ready (List.replicate 48 1) with phase := .run }.obuf = [] ∧
      { ready (List.replicate 48 1) with phase := .run }.ibuf.length % 16 = 0 ∧
      0 < { ready (List.replicate 48 1) with phase := .run }.ibuf.length / 16 ∧
      2 < { ready (List.replicate 48 1) with phase := .run }.ibuf.length / 16 ∧ 1 ≠ 0 ∧ 2 ≠ 0 :=
  ⟨copy_blkNoFail, by decide, rfl, rfl, rfl, rfl, by decide, by decide, by decide, by decide⟩
theorem witness_DifferentIvsGiveDifferentFirstBlocks :
    copy.BlkInv ∧ padded .ctr = false ∧ (ready k16).klen ≠ .none ∧ (ready k16).ivv = true ∧ 16 ≤ (ready k16).ibuf.length ∧
      ByteReg.zero 16 ≠ (ready k16).iv ∧ (perform copy (Instr.ofCipher .ctr .enc false) (ready k16)).err = false ∧
      (perform copy (Instr.ofCipher .ctr .enc false) { ready k16 with iv := ByteReg.zero 16 }).err = false :=
  ⟨copy_blkInv, rfl, by decide, rfl, by decide, by decide, by decide, by decide⟩
theorem witness_KxfBytes : 0 < 64 ∧ 63 < 64 := by decide

/-! A hash that counts its calls: on the 64 bytes that stand for `i` it answers what KXF of iteration `i` turns into the 64 bytes
that stand for `i + 1`, and on those that stand for `k` it fails. -/

/-- What KXF of iteration `i` turns into `s`. -/
def unkxf (s : ByteReg 64) (i : Nat) : ByteReg 64 :=
  ⟨List.zipWith (fun j y => rotl8 (y ^^^ BitVec.ofNat 8 (i >>> (j % 8))) 5) (List.range 64) s.val, by simp [s.property]⟩

/-- The 64 bytes that stand for `n`. -/
def count64 (n : Nat) : ByteReg 64 := ⟨bigEndian 64 n, by simp [bigEndian]⟩

def countTo (k : Nat) : Platform :=
  { toy with h512 := fun m =>
      if m.length ≠ 64 then some (count64 0)
      else if bigNat m = k then none
      else some (unkxf (count64 (bigNat m + 1)) (bigNat m)) }

theorem rotl8_5_3 : ∀ x : Byte, rotl8 (rotl8 x 5) 3 = x := by decide

theorem kxf_unkxf (s : ByteReg 64) (i : Nat) : kxf (unkxf s i) i = s := by
  apply Subtype.ext
  apply List.ext_getElem
  · simp [kxf, s.property, (unkxf s i).property]
  · intro j h1 h2
    simp [kxf, unkxf, kxfByte, rotl8_5_3]

theorem countTo_h512 {k n : Nat} (hn : n < 100000) :
    (countTo k).h512 (count64 n).val = if n = k then none else some (unkxf (count64 (n + 1)) n) := by
  have h1 : bigNat (count64 n).val = n := by
    rw [count64, bigNat_bigEndian, Nat.mod_eq_of_lt]
    exact lt_of_lt_of_le hn (by decide)
  simp [countTo, h1, (count64 n).property]

theorem countTo_kdfState {k : Nat} (hk : k < 100000) : ∀ n, n ≤ k → kdfState (countTo k) [] n = some (count64 n)
  | 0, _ => by simp [kdfState, countTo]
  | n + 1, h => by
    have hne : n ≠ k := by omega
    rw [kdfState, countTo_kdfState hk n (by omega), Option.bind_some, countTo_h512 (by omega), if_neg hne]
    simp [kxf_unkxf]

theorem witness_KdfHashFailure :
    noHash.h512 start.ibuf = none ∧
      (0 < 100000 ∧ kdfState (countTo 0) start.ibuf 0 = some (count64 0) ∧ (countTo 0).h512 (count64 0).val = none) ∧
      (99999 < 100000 ∧ kdfState (countTo 99999) start.ibuf 99999 = some (count64 99999) ∧
        (countTo 99999).h512 (count64 99999).val = none) :=
  ⟨rfl, ⟨by decide, countTo_kdfState (by decide) 0 (by decide), by rw [countTo_h512 (by decide), if_pos rfl]⟩,
    ⟨by decide, countTo_kdfState (by decide) 99999 (Nat.le_refl _), by rw [countTo_h512 (by decide), if_pos rfl]⟩⟩

theorem witness_OneGeneratedBit :
    { Entropy.reset 20 with edpos := 19 }.edpos ≠ toy.le ∧ (Entropy.reset 20).edpos = toy.le ∧
      (∃ d, toy.edigest (Entropy.reset 20).ecnt.toNat 0x1234 0x0F0F = some d) ∧
      noHash.edigest (Entropy.reset 20).ecnt.toNat 0x1234 0x0F0F = none ∧
      { Entropy.reset 20 with esv := true, ebits := 999 }.edpos = toy.le :=
  ⟨by decide, rfl, ⟨_, rfl⟩, rfl, rfl⟩

/-- What a draw leaves, and its bit (false when it fails). -/
def Drawn.left : Drawn Bool → Entropy
  | .got _ e => e
  | .failed e => e
def Drawn.bit : Drawn Bool → Bool
  | .got b _ => b
  | .failed _ => false

/-- The state before draw `k`, from `e` on. -/
def drawState (P : Platform) (e : Entropy) : Nat → Entropy
  | 0 => e
  | k + 1 => Drawn.left (entBit P (drawState P e k))

/-- A sampled generator with `n` unused digest bytes. -/
def unused (n : Nat) : Entropy := { Entropy.reset 20 with edpos := 20 - n, esv := true }

/-- Eight draws that cross a hash call after the fourth; draws that fail as the first and as the last of the eight; eight unused
digest bytes at both ends of the digest. -/
theorem witness_ByteFromUnusedDigestBytes :
    (∀ k, k < 8 → entBit toy (drawState toy (unused 4) k) =
      .got (Drawn.bit (entBit toy (drawState toy (unused 4) k))) (drawState toy (unused 4) (k + 1))) ∧
    (0 < 8 ∧ entBit noHash (drawState noHash (unused 0) 0) = .failed (unused 0)) ∧
    (7 < 8 ∧
      (∀ k, k < 7 → entBit noHash (drawState noHash (unused 7) k) =
        .got (Drawn.bit (entBit noHash (drawState noHash (unused 7) k))) (drawState noHash (unused 7) (k + 1))) ∧
      entBit noHash (drawState noHash (unused 7) 7) = .failed (drawState noHash (unused 7) 7)) ∧
    (unused 20).edpos + 8 ≤ toy.le ∧ (unused 8).edpos + 8 ≤ toy.le := by
  refine ⟨?_, ⟨by decide, by rfl⟩, ⟨by decide, ?_, by rfl⟩, by decide, by decide⟩ <;>
    (intro k hk; interval_cases k <;> rfl)
theorem witness_HashCallsOfGeneratedBytes :
    (Entropy.reset 20).edpos ≤ toy.le ∧ (∃ bs e, entBytes toy 5 (Entropy.reset 20) = .got bs e) ∧
      (∃ bs e, entBytes toy 1 { Entropy.reset 20 with edpos := 12, esv := true } = .got bs e) :=
  ⟨by decide, ⟨_, _, by rfl⟩, ⟨_, _, by rfl⟩⟩
theorem witness_RngStreamIsContinuous : (perform toy (.rng (1 + 2)) start).err = false := by decide
theorem witness_PhaseByPhaseEqualsOneStep :
    Instr.kdf.WellFormed ∧ (Instr.rng 65535).WellFormed ∧ decode 0x00000130 = .error .illegal ∧
      decode 0x0000011F = .error .unsupportedMode ∧ (working [.tick]).moves = .tick :: [] ∧ (working []).moves = [] :=
  ⟨by decide, by decide, by rfl, by rfl, rfl, rfl⟩

end Sys2Proof.Tests
end

section
/-! O21: every command completes. How each family of commands ends is said once, for every platform, as `Completed`. -/

namespace Sys2Proof.Machine

/-- The command of word `w` has completed (R32, R179, R221): normally, or with one of the errors of R211 and an empty OBUF. -/
def Completed (w : Word) (t : State) : Prop :=
  t.phase = .idle ∧ t.busy = false ∧ t.done = true ∧ t.ovr = false ∧ t.cur = w ∧
    ((t.err = false ∧ t.errcode = 0) ∨ (t.err = true ∧ t.obuf = [] ∧ ∃ e, t.errcode = errWord e w))

theorem completed_endedOk (w : Word) (s : State) : Completed w (endedOk w s) := by
  simp [Completed]

theorem completed_endedErr (w : Word) (e : ErrCode) (s : State) : Completed w (endedErr w e s) := by
  simp only [Completed, endedErr_phase, endedErr_busy, endedErr_done, endedErr_ovr, endedErr_cur, endedErr_err,
    endedErr_errcode, endedErr_obuf, true_and]
  exact .inr ⟨e, rfl⟩

/-- What the issue of word `w` has set and no step changes before the command completes (R176). -/
structure Issued (w : Word) (s : State) : Prop where
  cur : s.cur = w
  err : s.err = false
  ovr : s.ovr = false
  errcode : s.errcode = 0

theorem Issued.completed_complete {w : Word} {s : State} (h : Issued w s) : Completed w s.complete := by
  simp [Completed, h.cur, h.err, h.ovr, h.errcode]

theorem Issued.completed_raise {w : Word} {s : State} (h : Issued w s) (e : ErrCode) : Completed w (s.raise e) := by
  refine ⟨rfl, rfl, rfl, h.ovr, h.cur, .inr ⟨rfl, rfl, e, ?_⟩⟩
  rw [raise_errcode, h.cur]

/-! ## The façade commands (R180 to R182) -/

theorem completed_clearCheck (w : Word) (s : State) : Completed w (clearCheck (s.issue w)) :=
  Issued.completed_complete ⟨rfl, rfl, rfl, rfl⟩

theorem completed_keyldCheck (w : Word) (s : State) : Completed w (keyldCheck (s.issue w)) := by
  obtain ⟨l, _, h⟩ | ⟨_, h⟩ := keyldCheck_cases (s.issue w) <;> rw [h]
  · exact Issued.completed_complete ⟨rfl, rfl, rfl, rfl⟩
  · exact Issued.completed_raise ⟨rfl, rfl, rfl, rfl⟩ _

theorem completed_ivldCheck (w : Word) (s : State) : Completed w (ivldCheck (s.issue w)) := by
  obtain ⟨_, h⟩ | ⟨_, h⟩ := ivldCheck_cases (s.issue w) <;> rw [h]
  · exact Issued.completed_complete ⟨rfl, rfl, rfl, rfl⟩
  · exact Issued.completed_raise ⟨rfl, rfl, rfl, rfl⟩ _

/-! ## The cipher commands (R186, R187) -/

theorem completed_cipherEnd (w : Word) (r : LoopEnd) (s : State) : Completed w (cipherEnd w r s) := by
  unfold cipherEnd
  split
  · exact completed_endedErr ..
  · exact completed_endedOk ..

theorem completed_unpaddedEnd (w : Word) (r : LoopEnd) (s : State) : Completed w (unpaddedEnd w r s) := by
  unfold unpaddedEnd
  split
  · exact completed_endedErr ..
  · split
    · exact completed_endedErr ..
    · exact completed_endedOk ..

theorem completed_endOf (m : Mode) (d : Dir) (w : Word) (r : LoopEnd) (s : State) : Completed w (endOf m d w r s) := by
  unfold endOf
  split
  · exact completed_unpaddedEnd w r s
  · exact completed_cipherEnd w r s

/-- A cipher command ends at one of its checks, in the generation of its IV, or after its block loop. -/
theorem completed_cipherOn (P : Platform) (m : Mode) (d : Dir) (a : Bool) (s : State) :
    Completed (encode (Instr.ofCipher m d a)) (cipherOn P m d a (blockStepOf m d) s) := by
  obtain ⟨_, h⟩ | ⟨_, _, _, _, h⟩ | ⟨_, _, _, _, h⟩ | ⟨_, _, _, _, _, _, h⟩ | ⟨_, _, _, _, _, _, _, _, h⟩ | ⟨_, _, _, h⟩ :=
    cipherOn_cases P m d a s <;> rw [h]
  · exact completed_endedErr ..
  · exact completed_endedErr ..
  · exact completed_endedErr ..
  · exact completed_endedErr ..
  · exact completed_endOf ..
  · exact completed_endOf ..

/-! ## KDF and RNG (R98, R116) -/

theorem completed_kdfOn (P : Platform) (s : State) : Completed (encode .kdf) (kdfOn P s) := by
  obtain ⟨_, h⟩ | ⟨_, _, _, h⟩ | ⟨_, _, _, h⟩ := kdfOn_cases P s <;> rw [h]
  · exact completed_endedErr ..
  · exact completed_endedErr ..
  · exact completed_endedOk ..

theorem completed_rngOn (P : Platform) (n : Nat) (s : State) : Completed (encode (.rng n)) (rngOn P n s) := by
  rw [rngOn_eq]
  cases entBytes P n s.ent with
  | got bs e => exact Issued.completed_complete ⟨rfl, rfl, rfl, rfl⟩
  | failed e => exact Issued.completed_raise ⟨rfl, rfl, rfl, rfl⟩ _

/-! ## Every command -/

/-- Every command, run on any platform from any state, completes (R18). -/
theorem completed_perform (P : Platform) (i : Instr) (s : State) : Completed (encode i) (perform P i s) := by
  cases hc : cipherFields i with
  | some f =>
    obtain ⟨m, d, a⟩ := f
    obtain rfl := cipherFields_eq_some hc
    rw [perform_ofCipher]
    exact completed_cipherOn P m d a s
  | none =>
    cases i with
    | clear => exact completed_clearCheck _ s
    | keyld => exact completed_keyldCheck _ s
    | ivld => exact completed_ivldCheck _ s
    | kdf => exact completed_kdfOn P s
    | rng n => exact completed_rngOn P n s
    | _ => cases hc

theorem exec_eq_perform (i : Instr) (s : State) : exec i s = .next (perform Config.platform i s) := by
  cases i <;> rfl

/-- Settles O21: `exec` runs the command on the platform of Config, and on every platform each command completes. -/
theorem everyCommandCompletes : Obligations.EveryCommandCompletes :=
  fun i s => ⟨perform Config.platform i s, exec_eq_perform i s, completed_perform Config.platform i s⟩

end Sys2Proof.Machine
end

section
/-! O22: every step keeps the invariants. Between two commands `Inv` asks no more than `Held`; in the middle of one it is `Held`,
the flags of a command in flight (`Working`) and `phaseOk`. Each phase step raises, completes, or moves on with all three. -/

namespace Sys2Proof

/-! ## Which commands are decoded (R72, R78) -/

theorem decodeF0_eq_ok {w : Word} {i j : Instr} (h : decodeF0 w i = .ok j) : j = i := by
  unfold decodeF0 at h
  split at h <;> cases h
  rfl

theorem decodeFN_eq_ok {w : Word} {j : Instr} (h : decodeFN w = .ok j) : j = .rng (countField w).toNat := by
  unfold decodeFN at h
  split at h <;> cases h
  rfl

theorem decodeFC_eq_ok {w : Word} {j : Instr} (h : decodeFC w = .ok j) : ∃ m d a, j = Instr.ofCipher m d a := by
  unfold decodeFC at h
  split at h
  · cases h
  · split at h <;> cases h
    exact ⟨_, _, _, rfl⟩

/-- A decoded command is well-formed: the count of RNG is a field of 16 bits (R77, R78). -/
theorem wellFormed_of_decode {w : Word} {i : Instr} (h : decode w = .ok i) : i.WellFormed := by
  unfold decode at h
  split_ifs at h
  · rw [decodeF0_eq_ok h]
    rfl
  · rw [decodeF0_eq_ok h]
    rfl
  · rw [decodeF0_eq_ok h]
    rfl
  · rw [decodeF0_eq_ok h]
    rfl
  · rw [decodeFN_eq_ok h]
    exact decide_eq_true (countField w).isLt
  · obtain ⟨m, d, a, rfl⟩ := decodeFC_eq_ok h
    exact Machine.wellFormed_ofCipher m d a

/-- The decoder reads back the word of a well-formed command (R72, R73, R78). -/
theorem decode_encode {i : Instr} (h : i.WellFormed) : decode (encode i) = .ok i := by
  cases i with
  | rng n =>
    have hn : n < 65536 := of_decide_eq_true h
    simp [decode, decodeFN, Instr.opcode, Instr.autoivBit, Instr.countBits, Nat.mod_eq_of_lt hn]
  | _ =>
    simp [decode, decodeF0, decodeFC, Instr.opcode, Instr.autoivBit, Instr.countBits, modeField, dirField, Instr.ofCipher]

namespace Machine

/-! ## The command in flight (R29) -/

theorem inFlight_eq_some {s : State} {i : Instr} : inFlight s = some i ↔ decode s.cur = .ok i := by
  unfold inFlight
  cases decode s.cur <;> simp

theorem inFlight_of_cur {s : State} {i : Instr} (hi : i.WellFormed) (h : s.cur = encode i) : inFlight s = some i := by
  rw [inFlight_eq_some, h, decode_encode hi]

theorem cipherInFlight_of_inFlight {s : State} {m : Mode} {d : Dir} {a : Bool} (h : inFlight s = some (Instr.ofCipher m d a)) :
    cipherInFlight s = some (m, d) := by
  simp [cipherInFlight, h, cipherFields_ofCipher]

/-! ## The two halves of the invariants -/

/-- What `Inv` says of the registers, IBUF and the entropy state, in every phase (R21, R22, R28, R36, R51). -/
structure Held (P : Platform) (s : State) : Prop where
  keyTail : s.key.val.drop s.klen.toNat = List.replicate (32 - s.klen.toNat) 0
  ivZero : s.ivv = false → s.iv = ByteReg.zero 16
  krndLe : s.krnd ≤ 100000
  ibufLe : s.ibuf.length ≤ P.lenMax
  ent : EntropyOk P s.ent

/-- The flags of a command in flight (R176). -/
structure Working (s : State) : Prop where
  busy : s.busy = true
  done : s.done = false
  err : s.err = false
  errcode : s.errcode = 0

theorem Inv.held {P : Platform} {s : State} (h : Inv P s) : Held P s :=
  ⟨h.keyTail, h.ivZero, h.krndLe, h.buffers.1, h.edigLen, h.edposLe, h.ebitsLe, h.unsampled⟩

theorem Inv.idle {P : Platform} {s : State} (h : Inv P s) (hb : s.busy = false) : s.phase = .idle := by
  by_contra hp
  rw [h.busyIff.mpr hp] at hb
  cases hb

theorem Inv.working {P : Platform} {s : State} (h : Inv P s) (hp : s.phase ≠ .idle) : Working s := by
  have hb := h.busyIff.mpr hp
  have hd := h.busyDone hb
  have he : s.err = false := by
    by_contra he
    rw [(h.errDone (by simpa using he)).1] at hd
    cases hd
  exact ⟨hb, hd, he, h.errZero he⟩

theorem Working.issue (w : Word) (s : State) : Working (s.issue w) := ⟨rfl, rfl, rfl, rfl⟩

/-- In every phase of a command, OBUF is within its capacity (R52). -/
theorem obuf_room {P : Platform} {s : State} (hi : s.ibuf.length ≤ P.lenMax) (hp : s.phase ≠ .idle) (h : phaseOk s) :
    s.obuf.length ≤ max (P.lenMax + 16) 65535 := by
  unfold phaseOk at h
  cases hs : s.phase <;> rw [hs] at h
  case idle => exact absurd hs hp
  case check | ivgen | kinit | krun | kout => simp [h.1]
  case run =>
    obtain ⟨m, d, _, hb, ho⟩ := h
    have := blockCount_room (m := m) (d := d) hi
    omega
  case final =>
    obtain ⟨m, d, _, hb, ho⟩ := h
    have := blockCount_room (m := m) (d := d) hi
    omega
  case gen =>
    obtain ⟨n, hn, ho⟩ := h
    have : n < 65536 := of_decide_eq_true (wellFormed_of_decode (inFlight_eq_some.mp hn))
    omega

/-- The invariants are `Held`, the clauses on the flags, the capacity of OBUF and `phaseOk`. -/
theorem Held.inv_of_flags {P : Platform} {s : State} (h : Held P s) (busyIff : s.busy = true ↔ s.phase ≠ .idle)
    (busyDone : s.busy = true → s.done = false)
    (errDone : s.err = true → s.done = true ∧ s.obuf = [] ∧ ∃ e : ErrCode, s.errcode = errWord e s.cur)
    (errZero : s.err = false → s.errcode = 0) (room : s.obuf.length ≤ max (P.lenMax + 16) 65535) (phase : phaseOk s) :
    Inv P s :=
  { h, h.ent with busyIff, busyDone, errDone, errZero, phase, buffers := ⟨h.ibufLe, room⟩ }

/-- In the middle of a command the invariants are `Held`, `Working` and `phaseOk`. -/
theorem Held.inv {P : Platform} {s : State} (h : Held P s) (hw : Working s) (hp : s.phase ≠ .idle) (hph : phaseOk s) :
    Inv P s :=
  h.inv_of_flags (by simp [hw.busy, hp]) (fun _ => hw.done) (by simp [hw.err]) (fun _ => hw.errcode)
    (obuf_room h.ibufLe hp hph) hph

/-- Normal completion (R179) gives the invariants. -/
theorem Held.inv_complete {P : Platform} {s : State} (h : Held P s) (hw : Working s)
    (ho : s.obuf.length ≤ max (P.lenMax + 16) 65535) : Inv P s.complete :=
  Held.inv_of_flags { h with } (by simp) (by simp) (by simp [hw.err]) (fun _ => hw.errcode) ho trivial

/-- Error completion (R221) gives the invariants. -/
theorem Held.inv_raise {P : Platform} {s : State} {e : ErrCode} (h : Held P s) : Inv P (s.raise e) :=
  Held.inv_of_flags { h with } (by simp) (by simp) (fun _ => ⟨rfl, rfl, e, rfl⟩) (by simp) (by simp) trivial

/-- Issue (R176) keeps the invariants. -/
theorem Inv.issue {P : Platform} {s : State} (h : Inv P s) (w : Word) : Inv P (s.issue w) :=
  Held.inv { h.held with } (Working.issue w s) (by simp) ⟨rfl, rfl⟩

/-- The invariants do not look at OVR, nor at the model's own fields. -/
theorem Inv.unseen {P : Platform} {s : State} (h : Inv P s) (o : Bool) (k n : Nat) (ms : List Move) (r : Option Reply) :
    Inv P { s with ovr := o, ent := { s.ent with envReads := k }, hostReads := n, moves := ms, reply := r } :=
  { h with }

/-! ## CHECK (R177, R180 to R182) -/

/-- A key of legal length, padded with zeros, has a zero tail (R21, R180). -/
theorem toReg_keyTail {b : Bytes} {l : KeyLen} (h : keyLenOf b.length = some l) :
    (toReg 32 b).val.drop l.toNat = List.replicate (32 - l.toNat) 0 := by
  have hl : b.length = l.toNat ∧ l.toNat ≤ 32 := by
    unfold keyLenOf at h
    split_ifs at h with h1 h2 h3 <;> cases h
    · exact ⟨h1, by decide⟩
    · exact ⟨h2, by decide⟩
    · exact ⟨h3, by decide⟩
  obtain ⟨hb, h32⟩ := hl
  rw [← hb] at h32 ⊢
  have hv : (toReg 32 b).val = b ++ List.replicate (32 - b.length) 0 := by
    simp only [toReg, List.take_append, List.take_of_length_le h32, List.take_replicate, Nat.min_eq_left (Nat.sub_le _ _)]
  rw [hv, List.drop_left]

theorem inv_clearCheck {P : Platform} {s : State} (h : Held P s) (hw : Working s) (ho : s.obuf = []) :
    Inv P (clearCheck s) :=
  Held.inv_complete ⟨rfl, fun _ => rfl, Nat.zero_le _, Nat.zero_le _, h.ent⟩ { hw with } (by simp [ho])

theorem inv_keyldCheck {P : Platform} {s : State} (h : Held P s) (hw : Working s) (ho : s.obuf = []) :
    Inv P (keyldCheck s) := by
  obtain ⟨l, hl, heq⟩ | ⟨_, heq⟩ := keyldCheck_cases s <;> rw [heq]
  · exact Held.inv_complete { h with keyTail := toReg_keyTail hl } { hw with } (by simp [ho])
  · exact Held.inv_raise { h with keyTail := rfl }

theorem inv_ivldCheck {P : Platform} {s : State} (h : Held P s) (hw : Working s) (ho : s.obuf = []) :
    Inv P (ivldCheck s) := by
  obtain ⟨_, heq⟩ | ⟨_, heq⟩ := ivldCheck_cases s <;> rw [heq]
  · exact Held.inv_complete { h with ivZero := nofun } { hw with } (by simp [ho])
  · exact Held.inv_raise { h with ivZero := fun _ => rfl }

/-- Moving on to another phase of the command in flight. -/
theorem Held.inv_phase {P : Platform} {s : State} (h : Held P s) (hw : Working s) {ph : Phase} (hp : ph ≠ .idle)
    (hph : phaseOk { s with phase := ph }) : Inv P { s with phase := ph } :=
  Held.inv { h with } { hw with } hp hph

/-- On entering RUN no block has been processed and OBUF is empty (R186). -/
theorem Held.inv_enterRun {P : Platform} {s : State} {m : Mode} {d : Dir} (h : Held P s) (hw : Working s)
    (hc : cipherInFlight s = some (m, d)) (ho : s.obuf = []) (hb : s.blkidx = 0) : Inv P (enterRun m s) :=
  Held.inv { h with } { hw with } (by simp) ⟨m, d, hc, by simp [hb], by simp [ho]⟩

theorem inv_cipherCheck {P : Platform} {s : State} {m : Mode} {d : Dir} (a : Bool) (h : Held P s) (hw : Working s)
    (hc : cipherInFlight s = some (m, d)) (ho : s.obuf = []) (hb : s.blkidx = 0) : Inv P (cipherCheck m d a s) := by
  obtain ⟨_, heq⟩ | ⟨_, _, _, _, heq⟩ | ⟨_, _, _, _, _, heq⟩ | ⟨_, hn, _, _, _, heq⟩ | ⟨_, _, _, heq⟩ :=
    cipherCheck_cases m d a s <;> rw [heq]
  · exact h.inv_raise
  · exact h.inv_raise
  · exact h.inv_raise
  · exact h.inv_phase hw (by simp) ⟨ho, hb, m, d, hc, hn⟩
  · exact h.inv_enterRun hw hc ho hb

/-- CHECK of a decoded command keeps the invariants. -/
theorem inv_checkOf {P : Platform} {s : State} {i : Instr} (h : Inv P s) (hp : s.phase = .check)
    (hi : inFlight s = some i) : Inv P (checkOf i s) := by
  have hh := h.held
  have hw := h.working (by simp [hp])
  obtain ⟨ho, hb⟩ : s.obuf = [] ∧ s.blkidx = 0 := by simpa only [phaseOk, hp] using h.phase
  cases hf : cipherFields i with
  | some f =>
    obtain ⟨m, d, a⟩ := f
    obtain rfl := cipherFields_eq_some hf
    rw [checkOf_ofCipher]
    exact inv_cipherCheck a hh hw (cipherInFlight_of_inFlight hi) ho hb
  | none =>
    cases i with
    | clear => exact inv_clearCheck hh hw ho
    | keyld => exact inv_keyldCheck hh hw ho
    | ivld => exact inv_ivldCheck hh hw ho
    | kdf => exact hh.inv_phase hw (by simp) ⟨ho, hi⟩
    | rng n => exact hh.inv_phase hw (by simp) ⟨n, hi, by simp [ho]⟩
    | _ => cases hf

theorem inv_checkStep {P : Platform} {s : State} (h : Inv P s) (hp : s.phase = .check) : Inv P (checkStep s) := by
  unfold checkStep
  cases hd : decode s.cur with
  | error e => exact h.held.inv_raise
  | ok i => exact inv_checkOf h hp (inFlight_eq_some.mpr hd)

/-! ## The cipher phases (R178, R186, R187) -/

theorem inv_ivgenStep {P : Platform} {s : State} {m : Mode} {d : Dir} (h : Inv P s) (hp : s.phase = .ivgen)
    (hc : cipherInFlight s = some (m, d)) : Inv P (ivgenStep P m s) := by
  have hh := h.held
  have hw := h.working (by simp [hp])
  obtain ⟨ho, hb, _⟩ : s.obuf = [] ∧ s.blkidx = 0 ∧ _ := by simpa only [phaseOk, hp] using h.phase
  have he := entBytes_ok 16 hh.ent
  obtain ⟨v, e, hg, heq⟩ | ⟨e, hg, heq⟩ := ivgenStep_cases P m s <;> rw [heq] <;> rw [hg] at he
  · exact Held.inv_enterRun (d := d) { hh with ivZero := nofun, ent := he } { hw with } hc ho hb
  · exact Held.inv_raise { hh with ent := he }

theorem inv_runStep {P : Platform} {s : State} {m : Mode} {d : Dir} (h : Inv P s) (hp : s.phase = .run)
    (hc : cipherInFlight s = some (m, d)) : Inv P (runStep P m d (blockStepOf m d) s) := by
  have hh := h.held
  have hw := h.working (by simp [hp])
  obtain ⟨m', d', hc', hb, ho⟩ : ∃ m d, cipherInFlight s = some (m, d) ∧ s.blkidx ≤ blockCount m d s.ibuf.length ∧
      s.obuf.length ≤ 16 * s.blkidx := by simpa only [phaseOk, hp] using h.phase
  obtain ⟨rfl, rfl⟩ : m = m' ∧ d = d' := by simpa [hc] using hc'
  obtain ⟨_, _, heq⟩ | ⟨out, fb, hlt, hs, heq⟩ | ⟨hge, heq⟩ := runStep_cases P m d (blockStepOf m d) s <;> rw [heq]
  · exact hh.inv_raise
  · have hl := blockStepOf_out_le hs
    refine Held.inv { hh with } { hw with } (by simp [hp]) ?_
    simp only [phaseOk, appendOut_phase, hp]
    exact ⟨m, d, hc, hlt, by simp; omega⟩
  · exact hh.inv_phase hw (by simp) ⟨m, d, hc, Nat.le_antisymm hb hge, ho⟩

/-- UNPAD only takes bytes away (R127). -/
theorem unpad_length_le {b out : Bytes} (h : unpad b = some out) : out.length ≤ b.length := by
  unfold unpad at h
  split at h
  · cases h
  · split_ifs at h
    cases h
    simp

theorem inv_finalStep {P : Platform} {s : State} (m : Mode) (d : Dir) (h : Inv P s) (hp : s.phase = .final) :
    Inv P (finalStep m d s) := by
  have hh := h.held
  have hw := h.working (by simp [hp])
  obtain ⟨_, heq⟩ | ⟨_, _, _, heq⟩ | ⟨out, _, _, hu, heq⟩ := finalStep_cases m d s <;> rw [heq]
  · exact hh.inv_complete hw h.buffers.2
  · exact hh.inv_raise
  · exact Held.inv_complete { hh with } { hw with } ((unpad_length_le hu).trans h.buffers.2)

/-! ## The KDF phases (R116) and GEN (R98) -/

/-- In KINIT and KRUN the command in flight is KDF, and OBUF is still empty. -/
theorem phaseOk_kdf {s : State} (h : phaseOk s) (hp : s.phase = .kinit ∨ s.phase = .krun) :
    s.obuf = [] ∧ inFlight s = some .kdf := by
  obtain hp | hp := hp <;> simpa only [phaseOk, hp] using h

theorem inv_kinitStep {P : Platform} {s : State} (h : Inv P s) (hp : s.phase = .kinit) : Inv P (kinitStep P s) := by
  have hh := h.held
  have hw := h.working (by simp [hp])
  obtain ⟨_, heq⟩ | ⟨_, _, heq⟩ := kinitStep_cases P s <;> rw [heq]
  · exact hh.inv_raise
  · exact Held.inv { hh with krndLe := Nat.zero_le _ } { hw with } (by simp) (phaseOk_kdf h.phase (.inl hp) :)

theorem inv_krunStep {P : Platform} {s : State} (h : Inv P s) (hp : s.phase = .krun) : Inv P (krunStep P s) := by
  have hh := h.held
  have hw := h.working (by simp [hp])
  obtain ⟨_, _, heq⟩ | ⟨_, hlt, _, heq⟩ | ⟨_, heq⟩ := krunStep_cases P s <;> rw [heq]
  · exact hh.inv_raise
  · exact Held.inv { hh with krndLe := hlt } { hw with } (by simp [hp]) h.phase
  · exact hh.inv_phase hw (by simp) (phaseOk_kdf h.phase (.inr hp) :)

theorem inv_koutStep {P : Platform} {s : State} (h : Inv P s) (hp : s.phase = .kout) : Inv P (koutStep s) := by
  have hh := h.held
  have hw := h.working (by simp [hp])
  exact Held.inv_complete { hh with } { hw with } (by simp)

theorem inv_genStep {P : Platform} {s : State} {n : Nat} (h : Inv P s) (hp : s.phase = .gen)
    (hi : inFlight s = some (.rng n)) : Inv P (genStep P n s) := by
  have hh := h.held
  have hw := h.working (by simp [hp])
  have he := entByte_ok hh.ent
  obtain ⟨e, _, hg, heq⟩ | ⟨b, e, hlt, hg, heq⟩ | ⟨_, heq⟩ := genStep_cases P n s <;> rw [heq]
  · rw [hg] at he
    exact Held.inv_raise { hh with ent := he }
  · rw [hg] at he
    refine Held.inv { hh with ent := he } { hw with } (by simp [hp]) ?_
    simp only [phaseOk, appendOut_phase, hp]
    exact ⟨n, hi, by simp; omega⟩
  · exact hh.inv_complete hw h.buffers.2

/-! ## The sequencer's step (R175) -/

/-- A cipher phase moves on only with a cipher command in flight. -/
theorem cipherTurn_next {s t : State} {f : Mode → Dir → State} (h : cipherTurn s f = .next t) :
    ∃ m d, cipherInFlight s = some (m, d) ∧ t = f m d := by
  unfold cipherTurn at h
  split at h <;> cases h
  exact ⟨_, _, ‹_›, rfl⟩

theorem ivgenTurn_next {P : Platform} {s t : State} (h : ivgenTurn P s = .next t) :
    ∃ m d, cipherInFlight s = some (m, d) ∧ t = ivgenStep P m s := by
  unfold ivgenTurn at h
  split at h
  · cases h
  · split at h <;> cases h
    exact ⟨_, _, ‹_›, rfl⟩

theorem kdfTurn_next {s t u : State} (h : kdfTurn s u = .next t) : inFlight s = some .kdf ∧ t = u := by
  unfold kdfTurn at h
  split at h <;> cases h
  exact ⟨‹_›, rfl⟩

theorem genTurn_next {P : Platform} {s t : State} (h : genTurn P s = .next t) :
    ∃ n, inFlight s = some (.rng n) ∧ t = genStep P n s := by
  unfold genTurn at h
  split at h <;> cases h
  exact ⟨_, ‹_›, rfl⟩

/-- A sequencer step that is made keeps the invariants. -/
theorem inv_sequencerTurn {P : Platform} {s t : State} (h : Inv P s) (ht : sequencerTurn P s = .next t) : Inv P t := by
  unfold sequencerTurn at ht
  cases hp : s.phase <;> rw [hp] at ht
  case idle =>
    cases ht
    exact h
  case check =>
    cases ht
    exact inv_checkStep h hp
  case ivgen =>
    obtain ⟨m, d, hc, rfl⟩ := ivgenTurn_next ht
    exact inv_ivgenStep h hp hc
  case run =>
    obtain ⟨m, d, hc, rfl⟩ := cipherTurn_next ht
    exact inv_runStep h hp hc
  case final =>
    obtain ⟨m, d, _, rfl⟩ := cipherTurn_next ht
    exact inv_finalStep m d h hp
  case kinit =>
    obtain ⟨_, rfl⟩ := kdfTurn_next ht
    exact inv_kinitStep h hp
  case krun =>
    obtain ⟨_, rfl⟩ := kdfTurn_next ht
    exact inv_krunStep h hp
  case kout =>
    obtain ⟨_, rfl⟩ := kdfTurn_next ht
    exact inv_koutStep h hp
  case gen =>
    obtain ⟨n, hi, rfl⟩ := genTurn_next ht
    exact inv_genStep h hp hi

/-! ## A whole command (R64) -/

/-- A phase loop keeps the invariants when its step does, with the same word in CUR. -/
theorem inv_whilePhase {P : Platform} {ph : Phase} {f : State → State} {w : Word} (n : Nat)
    (hcur : ∀ s, (f s).cur = s.cur) (hf : ∀ s, s.phase = ph → Inv P s → s.cur = w → Inv P (f s)) {s : State}
    (h : Inv P s ∧ s.cur = w) : Inv P (whilePhase ph f n s) ∧ (whilePhase ph f n s).cur = w :=
  whilePhase_keeps (fun t => Inv P t ∧ t.cur = w) (fun t hp ⟨ht, hc⟩ => ⟨hf t hp ht hc, (hcur t).trans hc⟩) n s h

theorem inv_check_issue {P : Platform} {s : State} {i : Instr} (h : Inv P s) (hi : i.WellFormed) :
    Inv P (checkOf i (s.issue (encode i))) :=
  inv_checkOf (h.issue _) rfl (inFlight_of_cur hi rfl)

theorem inv_cipherOn {P : Platform} {s : State} (m : Mode) (d : Dir) (a : Bool) (h : Inv P s) :
    Inv P (cipherOn P m d a (blockStepOf m d) s) := by
  have hc : ∀ t : State, t.cur = encode (Instr.ofCipher m d a) → cipherInFlight t = some (m, d) := fun t ht =>
    cipherInFlight_of_inFlight (inFlight_of_cur (wellFormed_ofCipher m d a) ht)
  have h1 := inv_check_issue h (wellFormed_ofCipher m d a)
  rw [checkOf_ofCipher] at h1
  have h2 := inv_whilePhase (f := ivgenStep P m) 1 (by simp) (fun t hp ht hw => inv_ivgenStep ht hp (hc t hw))
    ⟨h1, by simp⟩
  have h3 : Inv P (runBlocks P m d (blockStepOf m d) _) ∧ _ :=
    inv_whilePhase _ (by simp) (fun t hp ht hw => inv_runStep ht hp (hc t hw)) h2
  exact (inv_whilePhase (f := finalStep m d) 1 (by simp) (fun t hp ht _ => inv_finalStep m d ht hp) h3).1

theorem inv_kdfOn {P : Platform} {s : State} (h : Inv P s) : Inv P (kdfOn P s) := by
  have h1 := inv_check_issue h (i := .kdf) rfl
  have h2 := inv_whilePhase (f := kinitStep P) 1 (by simp) (fun t hp ht _ => inv_kinitStep ht hp) ⟨h1, rfl⟩
  have h3 := inv_whilePhase (f := krunStep P) (kdfRounds + 1) (by simp) (fun t hp ht _ => inv_krunStep ht hp) h2
  exact (inv_whilePhase (f := koutStep) 1 (by simp) (fun t hp ht _ => inv_koutStep ht hp) h3).1

theorem inv_rngOn {P : Platform} {s : State} {n : Nat} (hn : (Instr.rng n).WellFormed) (h : Inv P s) :
    Inv P (rngOn P n s) :=
  (inv_whilePhase (f := genStep P n) (n + 1) (by simp)
    (fun _ hp ht hw => inv_genStep ht hp (inFlight_of_cur hn hw)) ⟨inv_check_issue h hn, rfl⟩).1

/-- A command run to completion keeps the invariants. -/
theorem inv_perform {P : Platform} {i : Instr} {s : State} (hi : i.WellFormed) (h : Inv P s) : Inv P (perform P i s) := by
  cases hf : cipherFields i with
  | some f =>
    obtain ⟨m, d, a⟩ := f
    obtain rfl := cipherFields_eq_some hf
    rw [perform_ofCipher]
    exact inv_cipherOn m d a h
  | none =>
    cases i with
    | clear => exact inv_check_issue h hi
    | keyld => exact inv_check_issue h hi
    | ivld => exact inv_check_issue h hi
    | kdf => exact inv_kdfOn h
    | rng n => exact inv_rngOn hi h
    | _ => cases hf

/-! ## The host moves (R56 to R60) -/

theorem inv_loadMove {P : Platform} {b : Bytes} {s t : State} (h : Inv P s) (ht : loadMove P b s = .next t) : Inv P t := by
  have hbuf := wf_loadMove h.buffers ht
  obtain ⟨hb, _, rfl⟩ := loadMove_next ht
  exact { h with buffers := hbuf, phase := by simp [phaseOk, h.idle hb] }

theorem inv_cmdMove {P : Platform} {w : Word} {s t : State} (h : Inv P s)
    (ht : cmdMove (fun i s => .next (perform P i s)) w s = .next t) : Inv P t := by
  obtain ⟨_, heq⟩ | ⟨i, _, hd, heq⟩ | ⟨e, _, _, heq⟩ := cmdMove_cases (fun i s => .next (perform P i s)) w s <;>
    rw [heq] at ht <;> cases ht
  · exact h.unseen true s.ent.envReads s.hostReads s.moves s.reply
  · exact inv_perform (wellFormed_of_decode hd) h
  · exact (h.issue w).held.inv_raise

theorem inv_cmdPhasedMove {P : Platform} {s : State} (w : Word) (h : Inv P s) : Inv P (cmdPhasedMove w s) := by
  unfold cmdPhasedMove
  split
  · exact h.unseen true s.ent.envReads s.hostReads s.moves s.reply
  · exact h.issue w

theorem inv_answer {P : Platform} {s : State} (r : Reply) (h : Inv P s) : Inv P (s.answer r) :=
  h.unseen s.ovr s.ent.envReads _ s.moves (some r)

/-- The state of R39 has the invariants, on every platform. -/
theorem inv_resetWith (P : Platform) : Inv P (State.resetWith P.le) :=
  have he : EntropyOk P (Entropy.reset P.le) := ⟨by simp [Entropy.reset], le_rfl, Nat.zero_le _, fun _ => ⟨rfl, rfl⟩⟩
  Held.inv_of_flags ⟨rfl, fun _ => rfl, Nat.zero_le _, Nat.zero_le _, he⟩ (by simp [State.resetWith]) nofun nofun
    (fun _ => rfl) (Nat.zero_le _) trivial

theorem inv_resetMove (P : Platform) (s : State) : Inv P (resetMove P.le s) :=
  (inv_resetWith P).unseen false s.ent.envReads s.hostReads s.moves s.reply

/-- Every move that answers a next state keeps the invariants. -/
theorem inv_makeMove {P : Platform} {m : Move} {s t : State} (h : Inv P s)
    (ht : makeMove P (fun i s => .next (perform P i s)) m s = .next t) : Inv P t := by
  cases m with
  | load b => exact inv_loadMove h ht
  | cmd w => exact inv_cmdMove h ht
  | cmdPhased w =>
    cases ht
    exact inv_cmdPhasedMove w h
  | write n w =>
    rw [makeMove] at ht
    split at ht
    · exact inv_cmdMove h ht
    · cases ht
      exact h
  | read n =>
    cases ht
    exact inv_answer _ h
  | readout =>
    cases ht
    exact inv_answer _ h
  | reset =>
    cases ht
    exact inv_resetMove P s
  | tick => exact inv_sequencerTurn h ht

/-- One turn on any platform keeps the invariants. -/
theorem inv_turn {P : Platform} {s t : State} (h : Inv P s)
    (ht : turn P (fun i s => .next (perform P i s)) s = .next t) : Inv P t := by
  unfold turn at ht
  split at ht
  · exact inv_sequencerTurn h ht
  · exact inv_makeMove (h.unseen s.ovr s.ent.envReads s.hostReads _ s.reply) ht

/-- The machine's step is a turn on the platform of Config. -/
theorem step_eq_turn (s : State) : step s = turn Config.platform (fun i s => .next (perform Config.platform i s)) s := by
  rw [step, funext₂ exec_eq_perform]

/-- Settles O22: every move and every phase step keeps the invariants. -/
theorem stepKeepsTheInvariants : Obligations.StepKeepsTheInvariants :=
  fun s _ h ht => inv_turn h (step_eq_turn s ▸ ht)

/-- Settles O23: the state of R39 has the invariants on the platform of Config. -/
theorem resetHasTheInvariants : Obligations.ResetHasTheInvariants := inv_resetWith Config.platform

end Machine
end Sys2Proof
end

section
/-! O25: which commands write each register. What every command leaves unchanged is read off the state it ends in. -/

namespace Sys2Proof.Machine

/-- What the command `i` leaves unchanged between the state `s` it starts from and the state `t` it ends in. -/
structure Frame (i : Instr) (s t : State) : Prop where
  key : i ≠ .keyld → i ≠ .clear → t.key = s.key ∧ t.klen = s.klen
  iv : i ≠ .ivld → i ≠ .clear → (s.ivv = true ∨ i.autoivBit = false) → t.iv = s.iv ∧ t.ivv = s.ivv
  kst : i ≠ .kdf → i ≠ .clear → t.kst = s.kst ∧ t.krnd = s.krnd
  ibuf : i ≠ .clear → t.ibuf = s.ibuf
  ent : (∀ n, i ≠ .rng n) → (s.ivv = true ∨ i.autoivBit = false) → t.ent = s.ent
  fb : (∀ m d a, i = Instr.ofCipher m d a → m = .ecb) → i ≠ .clear → t.fb = s.fb
  own : t.hostReads = s.hostReads ∧ t.moves = s.moves ∧ t.reply = s.reply

theorem frame_clearCheck (s : State) : Frame .clear s (clearCheck (s.issue (encode .clear))) := by
  constructor <;> simp [clearCheck]

theorem frame_keyldCheck (s : State) : Frame .keyld s (keyldCheck (s.issue (encode .keyld))) := by
  obtain ⟨l, _, h⟩ | ⟨_, h⟩ := keyldCheck_cases (s.issue (encode .keyld)) <;> rw [h] <;> constructor <;> simp

theorem frame_ivldCheck (s : State) : Frame .ivld s (ivldCheck (s.issue (encode .ivld))) := by
  obtain ⟨_, h⟩ | ⟨_, h⟩ := ivldCheck_cases (s.issue (encode .ivld)) <;> rw [h] <;> constructor <;> simp

theorem frame_kdfOn (P : Platform) (s : State) : Frame .kdf s (kdfOn P s) := by
  obtain ⟨_, h⟩ | ⟨_, _, _, h⟩ | ⟨_, _, _, h⟩ := kdfOn_cases P s <;> rw [h] <;> constructor <;> simp

theorem frame_rngOn (P : Platform) (n : Nat) (s : State) : Frame (.rng n) s (rngOn P n s) := by
  rw [rngOn_eq]
  cases entBytes P n s.ent <;> constructor <;> simp [rngCheck]

/-- A cipher command ends after its block loop as it was entered, but for FB, BLKIDX, OBUF and how it completed. -/
theorem endOf_cases (m : Mode) (d : Dir) (w : Word) (r : LoopEnd) (s : State) :
    (∃ e, endOf m d w r s = endedErr w e { s with fb := r.fb, blkidx := r.blocks }) ∨
    (∃ out, endOf m d w r s = endedOk w { s with fb := r.fb, blkidx := r.blocks, obuf := out }) := by
  unfold endOf
  split
  · unfold unpaddedEnd
    split
    · exact .inl ⟨.blk, rfl⟩
    · split
      · exact .inl ⟨.pad, rfl⟩
      · exact .inr ⟨_, rfl⟩
  · unfold cipherEnd
    split
    · exact .inl ⟨.blk, rfl⟩
    · exact .inr ⟨_, rfl⟩

@[simp] theorem autoivBit_ofCipher (m : Mode) (d : Dir) (a : Bool) : (Instr.ofCipher m d a).autoivBit = a := by
  cases m <;> cases d <;> rfl

theorem ecbRule_fb {f : Bytes → Block → Option Block} {key u o : Bytes} {fb fb' : Block}
    (h : ecbRule f key fb u = some (o, fb')) : fb' = fb := by
  obtain ⟨_, _, heq⟩ := Option.map_eq_some_iff.mp h
  exact (congrArg Prod.snd heq).symm

/-- A rule that leaves FB alone leaves it alone along the whole loop. -/
theorem blockLoop_fb {rule : Block → Bytes → Option (Bytes × Block)}
    (hr : ∀ {fb u o fb'}, rule fb u = some (o, fb') → fb' = fb) (fb : Block) (us : List Bytes) :
    (blockLoop rule fb us).fb = fb := by
  induction us with
  | nil => rfl
  | cons u us ih =>
    rw [blockLoop]
    cases h : rule fb u with
    | none => rfl
    | some r =>
      obtain rfl : r.2 = fb := hr h
      exact ih

/-- ECB does not touch FB (R23, R128, R132). -/
theorem blockLoop_ecb_fb (P : Platform) (d : Dir) (key : Bytes) (fb : Block) (us : List Bytes) :
    (blockLoop (ruleOf P .ecb d key) fb us).fb = fb := by
  cases d <;> exact blockLoop_fb ecbRule_fb fb us

/-- What a cipher command has to leave unchanged. -/
theorem frame_ofCipher {m : Mode} {d : Dir} {a : Bool} {s t : State} (key : t.key = s.key ∧ t.klen = s.klen)
    (iv : (s.ivv = true ∨ a = false) → t.iv = s.iv ∧ t.ivv = s.ivv ∧ t.ent = s.ent) (kst : t.kst = s.kst ∧ t.krnd = s.krnd)
    (ibuf : t.ibuf = s.ibuf) (fb : m = .ecb → t.fb = s.fb)
    (own : t.hostReads = s.hostReads ∧ t.moves = s.moves ∧ t.reply = s.reply) : Frame (Instr.ofCipher m d a) s t where
  key _ _ := key
  iv _ _ h := by
    obtain ⟨h1, h2, _⟩ := iv (by simpa using h)
    exact ⟨h1, h2⟩
  kst _ _ := kst
  ibuf _ := ibuf
  ent _ h := (iv (by simpa using h)).2.2
  fb h _ := fb (h m d a rfl)
  own := own

theorem frame_cipherOn (P : Platform) (m : Mode) (d : Dir) (a : Bool) (s : State) :
    Frame (Instr.ofCipher m d a) s (cipherOn P m d a (blockStepOf m d) s) := by
  obtain ⟨_, h⟩ | ⟨_, _, _, _, h⟩ | ⟨_, _, _, _, h⟩ | ⟨_, _, hn, hv, ha, _, h⟩ | ⟨v, e, _, hn, hv, ha, _, _, h⟩ | ⟨_, _, _, h⟩ :=
    cipherOn_cases P m d a s <;> rw [h]
  · apply frame_ofCipher <;> simp
  · apply frame_ofCipher <;> simp
  · apply frame_ofCipher <;> simp
  · apply frame_ofCipher <;> simp [hv, ha]
  · have hm : m ≠ .ecb := by
      rintro rfl
      cases hn
    obtain ⟨_, h'⟩ | ⟨_, h'⟩ := endOf_cases m d (encode (Instr.ofCipher m d a))
      (blockLoop (ruleOf P m d s.keyInForce) (toReg 16 v) (inputUnits m d s.ibuf))
      { s with ent := e, iv := toReg 16 v, ivv := true } <;> rw [h'] <;> apply frame_ofCipher <;> simp [hv, ha, hm]
  · have hfb : m = .ecb → (blockLoop (ruleOf P m d s.keyInForce) (if needsIV m then s.iv else s.fb)
        (inputUnits m d s.ibuf)).fb = s.fb := by
      rintro rfl
      exact blockLoop_ecb_fb ..
    obtain ⟨_, h'⟩ | ⟨_, h'⟩ := endOf_cases m d (encode (Instr.ofCipher m d a))
      (blockLoop (ruleOf P m d s.keyInForce) (if needsIV m then s.iv else s.fb) (inputUnits m d s.ibuf)) s <;>
      rw [h'] <;> exact frame_ofCipher ⟨rfl, rfl⟩ (fun _ => ⟨rfl, rfl, rfl⟩) ⟨rfl, rfl⟩ rfl hfb ⟨rfl, rfl, rfl⟩

/-- Every command, on any platform. -/
theorem frame_perform (P : Platform) (i : Instr) (s : State) : Frame i s (perform P i s) := by
  cases hf : cipherFields i with
  | some f =>
    obtain ⟨m, d, a⟩ := f
    obtain rfl := cipherFields_eq_some hf
    rw [perform_ofCipher]
    exact frame_cipherOn P m d a s
  | none =>
    cases i with
    | clear => exact frame_clearCheck s
    | keyld => exact frame_keyldCheck s
    | ivld => exact frame_ivldCheck s
    | kdf => exact frame_kdfOn P s
    | rng n => exact frame_rngOn P n s
    | _ => cases hf

/-- Settles O25: `exec` runs the command on the platform of Config, and on every platform it has this frame. -/
theorem onlyTheNamedCommandsWriteEachRegister : Obligations.OnlyTheNamedCommandsWriteEachRegister := by
  intro i s t h
  rw [exec_eq_perform] at h
  cases h
  obtain ⟨key, iv, kst, ibuf, ent, fb, own⟩ := frame_perform Config.platform i s
  exact ⟨key, iv, kst, ibuf, ent, fb, own⟩

end Sys2Proof.Machine
end

section
/-! The step as the next pending move (O6, O7, O11 to O13): one equation for every move, and then what the move does. -/

namespace Sys2Proof.Machine

/-- With a move pending, the step makes it (R17; log 5). -/
theorem step_of_moves {s : State} {m : Move} {rest : List Move} (h : s.moves = m :: rest) :
    step s = makeMove Config.platform exec m { s with moves := rest } := by
  rw [step, turn, h]

/-- H.CMD and the write to register 0 are one move (R30, R31). -/
theorem step_of_cmd {s : State} {w : Word} {rest : List Move} (h : s.moves = .cmd w :: rest ∨ s.moves = .write 0 w :: rest) :
    step s = cmdMove exec w { s with moves := rest } := by
  obtain h | h := h <;> rw [step_of_moves h] <;> rfl

theorem cmdMove_of_ok {run : Instr → State → Host.Outcome State Fault Refusal} {w : Word} {s : State} {i : Instr}
    (hb : s.busy = false) (hd : decode w = .ok i) : cmdMove run w s = run i s := by
  simp [cmdMove, hb, hd]

theorem cmdMove_of_error {run : Instr → State → Host.Outcome State Fault Refusal} {w : Word} {s : State} {e : DecodeError}
    (hb : s.busy = false) (hd : decode w = .error e) :
    cmdMove run w s = .next (endedErr w (decodeErrCode e) { s with blkidx := 0 }) := by
  simp [cmdMove, hb, hd]
  rfl

/-- Settles O6: an accepted command word is run. -/
theorem stepRunsTheDecodedCommand : Obligations.StepRunsTheDecodedCommand := by
  intro s w i rest hm hb hd
  rw [step_of_cmd hm]
  exact cmdMove_of_ok hb hd

/-- Settles O7: the error of a word that is not a command is raised right after its issue. -/
theorem stepEndsNonCommandsWithTheirError : Obligations.StepEndsNonCommandsWithTheirError := by
  intro s w rest hm hb
  rw [step_of_cmd hm]
  exact ⟨cmdMove_of_error (s := { s with moves := rest }) hb, cmdMove_of_error (s := { s with moves := rest }) hb⟩

/-- Settles O13: the move of a write to another number is no change. -/
theorem writesToOtherRegistersAreIgnored : Obligations.WritesToOtherRegistersAreIgnored := by
  intro s n w rest hn hm
  rw [step_of_moves hm, makeMove, if_neg hn]

/-- A read is recorded in the model's own fields and changes nothing else (R58; log 8, log 9). -/
theorem step_of_read {s : State} {n : Nat} {rest : List Move} (h : s.moves = .read n :: rest) :
    step s = .next { s with moves := rest, reply := some (readReg Config.platform n s),
                            hostReads := if s.busy then s.hostReads + 1 else s.hostReads } := by
  rw [step_of_moves h]
  rfl

/-- So is a read-out (R59). -/
theorem step_of_readout {s : State} {rest : List Move} (h : s.moves = .readout :: rest) :
    step s = .next { s with moves := rest, reply := some (readOut Config.platform s),
                            hostReads := if s.busy then s.hostReads + 1 else s.hostReads } := by
  rw [step_of_moves h]
  rfl

/-- The register numbers of R30 while not BUSY. -/
theorem readReg_of_idle (P : Platform) (n : Nat) {s : State} (hb : s.busy = false) :
    readReg P n s =
      if n = 1 then .word (statusWord s)
      else if n = 2 then .word s.errcode
      else if n = 3 then .count s.ibuf.length
      else if n = 4 then .count s.obuf.length
      else if n = 5 then .count s.blkidx
      else if n = 6 then .count s.krnd
      else if n = 7 then .word s.cur
      else if n = 8 then .bytes s.iv.val
      else if n = 9 then .bytes s.fb.val
      else .word 0 := by
  unfold readReg
  split <;> simp_all

/-- Register 0 and the numbers not listed read 0, BUSY or not (R30). -/
theorem readReg_unlisted (P : Platform) {n : Nat} (s : State) (h : n = 0 ∨ 10 ≤ n) : readReg P n s = .word 0 := by
  obtain rfl | h := h
  · rfl
  · unfold readReg
    split <;> simp_all

/-- Settles O11: the reads of an idle machine, number by number. -/
theorem readsReturnTheRegisters : Obligations.ReadsReturnTheRegisters := by
  intro s rest hb
  refine ⟨fun n hm => ?_, fun hm => ?_⟩
  · simp [step_of_read hm, readReg_of_idle Config.platform n hb, hb]
  · simp [step_of_readout hm, readOut, hb]

/-- Settles O12: a read while BUSY records its answer and uses up one draw; each number answers as R40 allows. -/
theorem busyReadsOfStatusErrcodeCurAreExact : Obligations.BusyReadsOfStatusErrcodeCurAreExact := by
  intro s rest hb
  refine ⟨fun n hm => ⟨readReg Config.platform n s, by simp [step_of_read hm, hb], ?_, ?_, ?_, readReg_unlisted _ s, ?_, ?_, ?_⟩,
    fun hm => ⟨Config.platform.busyBytes s.hostReads, by simp [step_of_readout hm, readOut, hb]⟩⟩
  · rintro rfl
    rfl
  · rintro rfl
    rfl
  · rintro rfl
    rfl
  · rintro (rfl | rfl | rfl) <;> exact ⟨_, rfl⟩
  · rintro rfl
    exact ⟨(Config.platform.busyKrnd s.hostReads).toNat, BitVec.isLt _, by simp [readReg, hb]⟩
  · rintro (rfl | rfl) <;> exact ⟨toBE128 (Config.platform.busyBlock s.hostReads).toNat, by simp [readReg, hb]⟩

/-- Settles O14, register by register. -/
theorem readsDoNotSeeKeyOrKst : Obligations.ReadsDoNotSeeKeyOrKst := by
  intro s k t n
  refine ⟨?_, rfl⟩
  unfold readReg
  split <;> rfl

end Sys2Proof.Machine
end

section
/-! The reset values (O15), and the fields of STATUS and ERRCODE (O17, O18). -/

namespace Sys2Proof.Machine

/-- Settles O15: each piece of state is the entry of the table. -/
theorem resetHasTheSpecifiedValues : Obligations.ResetHasTheSpecifiedValues := by
  refine ⟨?_, ?_, ?_, ?_, ?_, ?_, ?_, ?_, ?_, ?_, ?_, ?_, ?_, ?_, ?_, ?_, ?_, ?_, ?_, ?_, ?_, ?_, ?_, ?_⟩ <;> rfl

/-- STATUS bit by bit: bits 7:6 are KLC, and there is nothing above them (R32). -/
theorem statusWord_getLsbD (s : State) (k : Nat) :
    (statusWord s).getLsbD k =
      if k = 0 then s.busy
      else if k = 1 then s.done
      else if k = 2 then s.err
      else if k = 3 then s.ovr
      else if k = 4 then s.keyValid
      else if k = 5 then s.ivv
      else (keyLenCode s.klen).getLsbD (k - 6) := by
  simp only [statusWord, BitVec.getLsbD_append]
  rcases k with _ | _ | _ | _ | _ | _ | k <;> simp
  exact fun h => Nat.le_of_lt_succ (BitVec.lt_of_getLsbD h)

theorem keyValid_eq (s : State) : s.keyValid = (s.klen.toNat != 0) := by
  unfold State.keyValid
  cases s.klen <;> rfl

/-- KLC as a number (R32). -/
theorem statusWord_klc (s : State) : (statusWord s).toNat / 64 % 4 = (keyLenCode s.klen).toNat := by
  have h : (statusWord s).extractLsb' 6 2 = keyLenCode s.klen := by
    apply BitVec.eq_of_getLsbD_eq
    intro i hi
    rw [BitVec.getLsbD_extractLsb', statusWord_getLsbD]
    interval_cases i <;> rfl
  rw [← h, BitVec.extractLsb'_toNat, Nat.shiftRight_eq_div_pow]

/-- Settles O17, from STATUS bit by bit. -/
theorem statusBits : Obligations.StatusBits := by
  intro s
  refine ⟨statusWord_getLsbD s 0, statusWord_getLsbD s 1, statusWord_getLsbD s 2, statusWord_getLsbD s 3,
    (statusWord_getLsbD s 4).trans (keyValid_eq s), statusWord_getLsbD s 5, ?_, ?_⟩
  · rw [statusWord_klc]
    cases s.klen <;> rfl
  · intro k hk
    obtain ⟨j, rfl⟩ := Nat.exists_eq_add_of_le' hk
    rw [statusWord_getLsbD, BitVec.getLsbD_of_ge _ (j + 8 - 6) (by omega)]
    simp

/-- ERRCODE as a number: OPC above CODE (R33). -/
theorem errWord_toNat (e : ErrCode) (w : Word) : (errWord e w).toNat = w.toNat % 256 * 256 + e.code.toNat := by
  rw [errWord, BitVec.toNat_append, ← Nat.shiftLeft_add_eq_or_of_lt e.code.isLt, BitVec.toNat_append, Nat.shiftLeft_eq]
  simp [opField_toNat]

/-- Settles O18: the numbers of the codes are those of R211. -/
theorem errcodeFields : Obligations.ErrcodeFields := by
  intro e w
  rw [errWord_toNat]
  cases e <;> rfl

end Sys2Proof.Machine
end

section
/-! O19: a command run phase by phase ends in the state of its one-step meaning. In each phase the sequencer's step is the step
of that phase's loop, so the phase loops of a command, one after the other, are one run of the sequencer. -/

namespace Sys2Proof.Machine

/-! ## The sequencer's step, phase by phase (R175) -/

theorem sequencerTurn_issue_of_ok (P : Platform) {w : Word} {i : Instr} (h : decode w = .ok i) (s : State) :
    sequencerTurn P (s.issue w) = .next (checkOf i (s.issue w)) := by
  simp [sequencerTurn, checkStep, h]

/-- A word that is not a command ends at CHECK, before anything else is looked at (R176, R78). -/
theorem sequencerTurn_issue_of_error (P : Platform) {w : Word} {e : DecodeError} (h : decode w = .error e) (s : State) :
    sequencerTurn P (s.issue w) = .next (endedErr w (decodeErrCode e) { s with blkidx := 0 }) := by
  have hcheck : checkStep (s.issue w) = (s.issue w).raise (decodeErrCode e) := by simp [checkStep, h]
  exact congrArg Host.Outcome.next hcheck

theorem sequencerTurn_of_ivgen {P : Platform} {m : Mode} {d : Dir} {s : State} (hp : s.phase = .ivgen)
    (hc : cipherInFlight s = some (m, d)) (hn : needsIV m = true) : sequencerTurn P s = .next (ivgenStep P m s) := by
  simp [sequencerTurn, hp, ivgenTurn, hc, hn]

theorem sequencerTurn_of_run {P : Platform} {m : Mode} {d : Dir} {s : State} (hp : s.phase = .run)
    (hc : cipherInFlight s = some (m, d)) : sequencerTurn P s = .next (runStep P m d (blockStepOf m d) s) := by
  simp [sequencerTurn, hp, cipherTurn, hc]

theorem sequencerTurn_of_final {P : Platform} {m : Mode} {d : Dir} {s : State} (hp : s.phase = .final)
    (hc : cipherInFlight s = some (m, d)) : sequencerTurn P s = .next (finalStep m d s) := by
  simp [sequencerTurn, hp, cipherTurn, hc]

theorem sequencerTurn_of_kinit {P : Platform} {s : State} (hp : s.phase = .kinit) (hi : inFlight s = some .kdf) :
    sequencerTurn P s = .next (kinitStep P s) := by
  simp [sequencerTurn, hp, kdfTurn, hi]

theorem sequencerTurn_of_krun {P : Platform} {s : State} (hp : s.phase = .krun) (hi : inFlight s = some .kdf) :
    sequencerTurn P s = .next (krunStep P s) := by
  simp [sequencerTurn, hp, kdfTurn, hi]

theorem sequencerTurn_of_kout {P : Platform} {s : State} (hp : s.phase = .kout) (hi : inFlight s = some .kdf) :
    sequencerTurn P s = .next (koutStep s) := by
  simp [sequencerTurn, hp, kdfTurn, hi]

theorem sequencerTurn_of_gen {P : Platform} {n : Nat} {s : State} (hp : s.phase = .gen) (hi : inFlight s = some (.rng n)) :
    sequencerTurn P s = .next (genStep P n s) := by
  simp [sequencerTurn, hp, genTurn, hi]

/-- CHECK moves on to IVGEN only in a mode that needs an IV (R177). -/
theorem needsIV_of_cipherCheck_phase {m : Mode} {d : Dir} {a : Bool} {s : State}
    (h : (cipherCheck m d a s).phase = .ivgen) : needsIV m = true := by
  obtain ⟨_, heq⟩ | ⟨_, _, _, _, heq⟩ | ⟨_, _, _, _, _, heq⟩ | ⟨_, hn, _, _, _, _⟩ | ⟨_, _, _, heq⟩ :=
    cipherCheck_cases m d a s
  case inr.inr.inr.inl => exact hn
  all_goals simp [heq] at h

/-! ## A command in flight, from its issue on -/

/-- The command of word `w`, issued in state `s`, reaches state `t` by steps of the sequencer and is still the one in CUR. -/
def Reaches (P : Platform) (w : Word) (s t : State) : Prop :=
  (∃ n, sequencerRun P n (s.issue w) = .next t) ∧ t.cur = w

theorem Reaches.check {P : Platform} {i : Instr} {s : State} (hi : i.WellFormed)
    (hc : (checkOf i (s.issue (encode i))).cur = encode i) :
    Reaches P (encode i) s (checkOf i (s.issue (encode i))) :=
  ⟨sequencerRun_one (sequencerTurn_issue_of_ok P (decode_encode hi) s), hc⟩

/-- The loop of a phase in which the sequencer makes the loop's step. -/
theorem Reaches.whilePhase {P : Platform} {w : Word} {s t : State} (h : Reaches P w s t) {ph : Phase} {f : State → State}
    (hcur : ∀ u, (f u).cur = u.cur) (hf : ∀ u, u.phase = ph → u.cur = w → sequencerTurn P u = .next (f u)) (k : Nat) :
    Reaches P w s (whilePhase ph f k t) := by
  obtain ⟨hrun, hw⟩ := h
  obtain ⟨n, hn, hw'⟩ := sequencerRun_whilePhase (fun u hp hu => ⟨hf u hp hu, (hcur u).trans hu⟩) k t hw
  exact ⟨sequencerRun_trans hrun ⟨n, hn⟩, hw'⟩

/-- A cipher command: CHECK, IVGEN if CHECK moved on to it, RUN, FINAL. -/
theorem reaches_cipherOn (P : Platform) (m : Mode) (d : Dir) (a : Bool) (s : State) :
    Reaches P (encode (Instr.ofCipher m d a)) s (cipherOn P m d a (blockStepOf m d) s) := by
  have hwf := wellFormed_ofCipher m d a
  have hc : ∀ u : State, u.cur = encode (Instr.ofCipher m d a) → cipherInFlight u = some (m, d) := fun u hu =>
    cipherInFlight_of_inFlight (inFlight_of_cur hwf hu)
  have hcheck : Reaches P (encode (Instr.ofCipher m d a)) s (cipherCheck m d a (s.issue (encode (Instr.ofCipher m d a)))) := by
    rw [← checkOf_ofCipher]
    exact .check hwf (by simp [checkOf_ofCipher])
  have hivgen : Reaches P (encode (Instr.ofCipher m d a)) s
      (whilePhase .ivgen (ivgenStep P m) 1 (cipherCheck m d a (s.issue (encode (Instr.ofCipher m d a))))) := by
    by_cases hp : (cipherCheck m d a (s.issue (encode (Instr.ofCipher m d a)))).phase = .ivgen
    · exact hcheck.whilePhase (ivgenStep_cur P m)
        (fun u hu hw => sequencerTurn_of_ivgen hu (hc u hw) (needsIV_of_cipherCheck_phase hp)) 1
    · rwa [whilePhase_of_ne hp]
  rw [cipherOn_phases, runBlocks]
  exact (hivgen.whilePhase (runStep_cur P m d _) (fun u hp hw => sequencerTurn_of_run hp (hc u hw)) _).whilePhase
    (finalStep_cur m d) (fun u hp hw => sequencerTurn_of_final hp (hc u hw)) 1

/-- KDF: CHECK, KINIT, KRUN, KOUT. -/
theorem reaches_kdfOn (P : Platform) (s : State) : Reaches P (encode .kdf) s (kdfOn P s) := by
  have hi : ∀ u : State, u.cur = encode .kdf → inFlight u = some .kdf := fun _ => inFlight_of_cur rfl
  have hcheck : Reaches P (encode .kdf) s (kdfCheck (s.issue (encode .kdf))) := .check (i := .kdf) rfl rfl
  have hkinit := hcheck.whilePhase (kinitStep_cur P) (fun u hp hw => sequencerTurn_of_kinit hp (hi u hw)) 1
  have hkrun := hkinit.whilePhase (krunStep_cur P) (fun u hp hw => sequencerTurn_of_krun hp (hi u hw)) (kdfRounds + 1)
  exact hkrun.whilePhase koutStep_cur (fun u hp hw => sequencerTurn_of_kout hp (hi u hw)) 1

/-- RNG: CHECK, GEN. -/
theorem reaches_rngOn (P : Platform) {n : Nat} (hn : (Instr.rng n).WellFormed) (s : State) :
    Reaches P (encode (.rng n)) s (rngOn P n s) :=
  have hcheck : Reaches P (encode (.rng n)) s (rngCheck (s.issue (encode (.rng n)))) := .check hn rfl
  hcheck.whilePhase (genStep_cur P n) (fun _ hp hw => sequencerTurn_of_gen hp (inFlight_of_cur hn hw)) (n + 1)

/-- Every command, on any platform and from any state (R64). The façade commands end at CHECK. -/
theorem sequencerRun_perform (P : Platform) {i : Instr} (hi : i.WellFormed) (s : State) :
    ∃ n, sequencerRun P n (s.issue (encode i)) = .next (perform P i s) := by
  have hcheck := sequencerRun_one (sequencerTurn_issue_of_ok P (decode_encode hi) s)
  cases hf : cipherFields i with
  | some f =>
    obtain ⟨m, d, a⟩ := f
    obtain rfl := cipherFields_eq_some hf
    rw [perform_ofCipher]
    exact (reaches_cipherOn P m d a s).1
  | none =>
    cases i with
    | clear => exact hcheck
    | keyld => exact hcheck
    | ivld => exact hcheck
    | kdf => exact (reaches_kdfOn P s).1
    | rng n => exact (reaches_rngOn P hi s).1
    | _ => cases hf

/-- Settles O19: the phase loops of a command are one run of the sequencer, a word that is not a command ends at CHECK, and
the two steps are the sequencer's by the definition of a turn. -/
theorem phaseByPhaseEqualsOneStep : Obligations.PhaseByPhaseEqualsOneStep := by
  refine ⟨fun P i s hi => sequencerRun_perform P hi s,
    fun P w s => ⟨fun h => sequencerTurn_issue_of_error P h s, fun h => sequencerTurn_issue_of_error P h s⟩,
    fun s rest hm => ?_, fun s hm => ?_⟩
  · rw [step_of_moves hm, makeMove]
  · rw [step, turn, hm]

end Sys2Proof.Machine
end

section
/-! The host moves on the two sides of BUSY: H.CMD dropped (O8), H.LOAD made or refused (O10). -/

namespace Sys2Proof.Machine

theorem cmdMove_of_busy (run : Instr → State → Host.Outcome State Fault Refusal) (w : Word) {s : State} (hb : s.busy = true) :
    cmdMove run w s = .next { s with ovr := true } := by
  rw [cmdMove, if_pos hb]

theorem cmdPhasedMove_of_busy (w : Word) {s : State} (hb : s.busy = true) : cmdPhasedMove w s = { s with ovr := true } := by
  rw [cmdPhasedMove, if_pos hb]

/-- Settles O8: each form of H.CMD looks at BUSY first. -/
theorem commandWhileBusyIsDropped : Obligations.CommandWhileBusyIsDropped := by
  intro s w rest hb hm
  have hb' : State.busy { s with moves := rest } = true := hb
  obtain hm | hm | hm := hm
  · rw [step_of_cmd (.inl hm), cmdMove_of_busy _ _ hb']
  · rw [step_of_moves hm, makeMove, cmdPhasedMove_of_busy _ hb']
  · rw [step_of_cmd (.inr hm), cmdMove_of_busy _ _ hb']

/-- What H.LOAD does: made when not BUSY and within LEN_MAX (R56), otherwise refused (log 10). -/
theorem step_of_load {s : State} {b : Bytes} {rest : List Move} (h : s.moves = .load b :: rest) :
    step s =
      if s.busy then .refused .loadWhileBusy
      else if Config.platform.lenMax < b.length then .refused .loadTooLong
      else .next { s with moves := rest, ibuf := b } := by
  rw [step_of_moves h, makeMove, loadMove]

/-- Settles O10, branch by branch of H.LOAD. -/
theorem loadReplacesTheInputBuffer : Obligations.LoadReplacesTheInputBuffer := by
  intro s b rest hm
  rw [step_of_load hm]
  refine ⟨fun hb hl => ?_, fun hb => ?_, fun hb hl => ?_⟩
  · simp [hb, Nat.not_lt.mpr hl]
  · simp [hb]
  · simp [hb, hl]

end Sys2Proof.Machine
end

section
/-! The encoding (R70 to R81): the decoder accepts exactly the words of the well-formed commands (O1, O2, O3), and the masks and
matches of the opcode table say the same (O4). -/

namespace Sys2Proof

/-- Settles O2: `decode_encode`, which goes through the commands one by one. -/
theorem decodeOfEncodeIsIdentity : Obligations.DecodeOfEncodeIsIdentity :=
  fun _ => decode_encode

/-! ## An accepted word is its command's word (R72, R78) -/

/-- A word with the fields of a command is that command's word. -/
theorem encode_eq {i : Instr} {w : Word} (hop : opField w = i.opcode) (hr : rsvField w = 0) (ha : autoivField w = i.autoivBit)
    (hn : countField w = i.countBits) : encode i = w :=
  word_ext (by simp [hn]) (by simp [hr]) (by simp [ha]) (by simp [hop])

/-- Format F0: AUTOIV and N are zero (R72). -/
theorem encode_of_decodeF0 {w : Word} {i j : Instr} (h : decodeF0 w i = .ok j) (hr : rsvField w = 0)
    (hop : opField w = i.opcode) (ha : i.autoivBit = false) (hn : i.countBits = 0) : encode j = w := by
  obtain rfl := decodeF0_eq_ok h
  unfold decodeF0 at h
  split at h
  · cases h
  · rename_i hz
    obtain ⟨hza, hzn⟩ := not_or.mp hz
    exact encode_eq hop hr (by simpa [ha] using hza) (by simpa [hn] using hzn)

/-- Format FN: AUTOIV is zero and N is the count (R72, R77). -/
theorem encode_of_decodeFN {w : Word} {j : Instr} (h : decodeFN w = .ok j) (hr : rsvField w = 0) (hop : opField w = 0x30#8) :
    encode j = w := by
  obtain rfl := decodeFN_eq_ok h
  unfold decodeFN at h
  split at h
  · cases h
  · rename_i hz
    exact encode_eq hop hr (Bool.eq_false_iff.mpr hz) (by simp [Instr.countBits])

@[simp] theorem autoivBit_ofCipher (m : Mode) (d : Dir) (a : Bool) : (Instr.ofCipher m d a).autoivBit = a := by
  cases m <;> cases d <;> rfl

@[simp] theorem countBits_ofCipher (m : Mode) (d : Dir) (a : Bool) : (Instr.ofCipher m d a).countBits = 0 := by
  cases m <;> cases d <;> rfl

/-- AUTOIV is no part of OP (R71). -/
theorem opcode_ofCipher_autoiv (m : Mode) (d : Dir) (a b : Bool) :
    (Instr.ofCipher m d a).opcode = (Instr.ofCipher m d b).opcode := by
  cases m <;> cases d <;> rfl

/-- OP of a cipher command is 0001, MODE and DIR (R74, R75), shown on the 256 values of OP. -/
theorem opcode_ofCipher_fields : ∀ op : Byte, op.extractLsb' 4 4 = 1#4 → ∀ m ∈ modeField op,
    (Instr.ofCipher m (dirField op) false).opcode = op := by
  decide

/-- Format FC: N is zero, and MODE, DIR and AUTOIV name the command (R72, R78). -/
theorem encode_of_decodeFC {w : Word} {j : Instr} (h : decodeFC w = .ok j) (hr : rsvField w = 0)
    (hc : (opField w).extractLsb' 4 4 = 1#4) : encode j = w := by
  unfold decodeFC at h
  split at h
  · cases h
  · rename_i hz
    split at h
    · cases h
    · rename_i m hm
      cases h
      refine encode_eq ?_ hr (autoivBit_ofCipher ..).symm (by simpa using hz)
      rw [opcode_ofCipher_autoiv m _ _ false, opcode_ofCipher_fields _ hc m hm]

/-- Every accepted word is the word of the command read from it, row by row of R78. -/
theorem encode_of_decode {w : Word} {i : Instr} (h : decode w = .ok i) : encode i = w := by
  unfold decode at h
  split at h
  · cases h
  · rename_i hr
    have hr : rsvField w = 0 := not_not.mp hr
    split_ifs at h with hop hop hop hop hop hop
    · exact encode_of_decodeF0 h hr hop rfl rfl
    · exact encode_of_decodeF0 h hr hop rfl rfl
    · exact encode_of_decodeF0 h hr hop rfl rfl
    · exact encode_of_decodeF0 h hr hop rfl rfl
    · exact encode_of_decodeFN h hr hop
    · exact encode_of_decodeFC h hr hop

/-- Settles O3. -/
theorem encodeOfDecodeIsIdentity : Obligations.EncodeOfDecodeIsIdentity :=
  fun _ _ h => ⟨encode_of_decode h, wellFormed_of_decode h⟩

/-- The decoder reads command `i` from its word and from no other. -/
theorem decode_eq_ok_iff {w : Word} {i : Instr} : decode w = .ok i ↔ i.WellFormed ∧ encode i = w := by
  constructor
  · intro h
    exact ⟨wellFormed_of_decode h, encode_of_decode h⟩
  · rintro ⟨hi, rfl⟩
    exact decode_encode hi

/-- Settles O1: each word written out is the word of its well-formed command. -/
theorem opcodeMapWordsDecode : Obligations.OpcodeMapWordsDecode := by
  unfold Obligations.OpcodeMapWordsDecode
  simp only [decode_eq_ok_iff]
  decide

/-! ## The rows of the opcode table (R80) -/

/-- The commands whose word has AUTOIV in bit 8: those of format FC (R72). -/
def Instr.hasAutoiv (i : Instr) : Bool := (Machine.cipherFields i).isSome

/-- The command whose word has its count in bits 31:16: that of format FN (R72). -/
def Instr.hasCount : Instr → Bool
  | .rng _ => true
  | _ => false

/-- The mask of a command's row: zero on the bits of its operand, one elsewhere (R80). -/
def Instr.rowMask (i : Instr) : Word :=
  assemble (if i.hasCount then 0 else .allOnes 16) (.allOnes 7) (!i.hasAutoiv) (.allOnes 8)

/-- The match of a command's row: its opcode, the other bits zero (R80). -/
def Instr.rowMatch (i : Instr) : Word := assemble 0 0 false i.opcode

/-- The commands of the fifteen rows, their operands read from the word `w`. -/
def tableCommands (w : Word) : List Instr :=
  let a := w.getLsbD 8
  [.clear, .keyld, .ivld, .ecbEnc a, .ecbDec a, .cbcEnc a, .cbcDec a, .cfbEnc a, .cfbDec a, .ofbEnc a, .ofbDec a, .ctrEnc a,
    .ctrDec a, .kdf, .rng (w.toNat / 65536)]

/-- The rows' commands are the well-formed ones whose operand stands in its field of `w`. -/
theorem mem_tableCommands {w : Word} {i : Instr} : i ∈ tableCommands w ↔
    i.WellFormed ∧ (i.hasAutoiv = true → i.autoivBit = autoivField w) ∧ (i.hasCount = true → i.countBits = countField w) := by
  cases i with
  | rng n =>
    have hlt := w.isLt
    have hfield : n = w.toNat / 65536 ↔ n < 65536 ∧ n % 65536 = w.toNat / 65536 := by omega
    simpa [tableCommands, Instr.WellFormed, Instr.wellFormed, Instr.hasAutoiv, Machine.cipherFields, Instr.hasCount,
      Instr.countBits, ← BitVec.toNat_inj, countField_toNat] using hfield
  | _ =>
    simp [tableCommands, Instr.WellFormed, Instr.wellFormed, Instr.hasAutoiv, Machine.cipherFields, Instr.hasCount,
      Instr.autoivBit, autoivField]

theorem autoivBit_of_hasAutoiv {i : Instr} (h : i.hasAutoiv = false) : i.autoivBit = false := by
  cases i with
  | clear | keyld | ivld | kdf | rng => rfl
  | _ => cases h

theorem countBits_of_hasCount {i : Instr} (h : i.hasCount = false) : i.countBits = 0 := by
  cases i with
  | rng => cases h
  | _ => rfl

/-! AND works field by field. -/

@[simp] theorem opField_and (v w : Word) : opField (v &&& w) = opField v &&& opField w := BitVec.extractLsb'_and

@[simp] theorem rsvField_and (v w : Word) : rsvField (v &&& w) = rsvField v &&& rsvField w := BitVec.extractLsb'_and

@[simp] theorem countField_and (v w : Word) : countField (v &&& w) = countField v &&& countField w := BitVec.extractLsb'_and

@[simp] theorem autoivField_and (v w : Word) : autoivField (v &&& w) = (autoivField v && autoivField w) := BitVec.getLsbD_and

theorem word_eq_iff {v w : Word} : v = w ↔
    countField v = countField w ∧ rsvField v = rsvField w ∧ autoivField v = autoivField w ∧ opField v = opField w := by
  constructor
  · rintro rfl
    exact ⟨rfl, rfl, rfl, rfl⟩
  · rintro ⟨hn, hr, ha, hop⟩
    exact word_ext hn hr ha hop

/-- On the command of a row, with the operands of `w`, mask and match compare every field of `w` but the operand's with the
command's word, and the operand's field agrees anyway. -/
theorem and_rowMask_eq_rowMatch_iff {w : Word} {i : Instr} (h : i ∈ tableCommands w) :
    w &&& i.rowMask = i.rowMatch ↔ decode w = .ok i := by
  obtain ⟨hi, ha, hn⟩ := mem_tableCommands.mp h
  have hcount : countField w &&& (if i.hasCount then 0 else .allOnes 16) = 0 ↔ countField w = i.countBits := by
    cases hc : i.hasCount
    · rw [if_neg Bool.false_ne_true, BitVec.and_allOnes, countBits_of_hasCount hc]
    · simp [hn hc]
  have hautoiv : (autoivField w && !i.hasAutoiv) = false ↔ autoivField w = i.autoivBit := by
    cases hc : i.hasAutoiv
    · simp [autoivBit_of_hasAutoiv hc]
    · simp [ha hc]
  rw [decode_eq_ok_iff, and_iff_right hi, eq_comm (a := encode i), word_eq_iff, word_eq_iff, Instr.rowMask, Instr.rowMatch]
  simp only [countField_and, rsvField_and, autoivField_and, opField_and, countField_assemble, rsvField_assemble,
    autoivField_assemble, opField_assemble, countField_encode, rsvField_encode, autoivField_encode, opField_encode,
    BitVec.and_allOnes, hcount, hautoiv]

/-- Two rows' commands of one word are different. -/
theorem tableCommands_nodup (w : Word) : (tableCommands w).Nodup := by
  simp [tableCommands]

/-- A command read from `w` is that of a row. -/
theorem mem_tableCommands_of_decode {w : Word} {i : Instr} (h : decode w = .ok i) : i ∈ tableCommands w := by
  obtain ⟨hi, rfl⟩ := decode_eq_ok_iff.mp h
  exact mem_tableCommands.mpr ⟨hi, by simp, by simp⟩

/-- Settles O4: the rows are those of `tableCommands`, each with its mask and match, and a word decodes to one command at most. -/
theorem matchAndMaskDecide : Obligations.MatchAndMaskDecide := by
  intro w rows
  have hrows : rows = (tableCommands w).map fun i => (i.rowMask, i.rowMatch, i) := by
    simp [rows, tableCommands, Instr.rowMask, Instr.rowMatch, Instr.hasCount, Instr.hasAutoiv, Machine.cipherFields,
      Instr.opcode, assemble]
  simp only [hrows, List.forall_mem_map, List.pairwise_map]
  refine ⟨fun i hi => and_rowMask_eq_rowMatch_iff hi, fun hno => ?_, ?_⟩
  · cases hd : decode w with
    | ok i =>
      have hi := mem_tableCommands_of_decode hd
      exact absurd ((and_rowMask_eq_rowMatch_iff hi).mpr hd) (hno i hi)
    | error e => cases e <;> simp
  · refine (tableCommands_nodup w).imp_of_mem fun hi hj hne hboth => hne ?_
    obtain ⟨hmi, hmj⟩ := hboth
    have hdi := (and_rowMask_eq_rowMatch_iff hi).mp hmi
    have hdj := (and_rowMask_eq_rowMatch_iff hj).mp hmj
    exact Except.ok.inj (hdi.symm.trans hdj)

end Sys2Proof
end

section
/-! AUTOIV where no IV is to be generated (O32). -/

namespace Sys2Proof.Machine

/-- The error word of a cipher command does not show AUTOIV: OPC is bits 7:0 of the word (R33). -/
theorem errWord_ofCipher (e : ErrCode) (m : Mode) (d : Dir) (a b : Bool) :
    errWord e (encode (Instr.ofCipher m d a)) = errWord e (encode (Instr.ofCipher m d b)) := by
  simp only [errWord, opField_encode, opcode_ofCipher_autoiv m d a b]

/-- An error shows AUTOIV in CUR only. -/
theorem endedErr_ofCipher (m : Mode) (d : Dir) (a b : Bool) (e : ErrCode) (s : State) :
    endedErr (encode (Instr.ofCipher m d a)) e s =
      { endedErr (encode (Instr.ofCipher m d b)) e s with cur := encode (Instr.ofCipher m d a) } := by
  simp only [endedErr, errWord_ofCipher e m d a b]

/-- The end of the block loop shows AUTOIV in CUR only. -/
theorem endOf_ofCipher (m : Mode) (d : Dir) (a b : Bool) (r : LoopEnd) (s : State) :
    endOf m d (encode (Instr.ofCipher m d a)) r s =
      { endOf m d (encode (Instr.ofCipher m d b)) r s with cur := encode (Instr.ofCipher m d a) } := by
  unfold endOf unpaddedEnd cipherEnd
  split
  · split
    · exact endedErr_ofCipher ..
    · split
      · exact endedErr_ofCipher ..
      · rfl
  · split
    · exact endedErr_ofCipher ..
    · rfl

/-- A cipher command that has its IV, or needs none, ends at the same check or after the same block loop in both forms (R76,
R177). -/
theorem cipherOn_autoiv_ignored (P : Platform) (m : Mode) (d : Dir) (a b : Bool) {s : State}
    (hv : needsIV m = true → s.ivv = true) :
    cipherOn P m d a (blockStepOf m d) s =
      { cipherOn P m d b (blockStepOf m d) s with cur := encode (Instr.ofCipher m d a) } := by
  by_cases hk : s.klen = .none
  · rw [cipherOn_keylen hk, cipherOn_keylen hk]
    exact endedErr_ofCipher ..
  by_cases ha : padded m = true ∧ d = .dec ∧ s.ibuf.length % 16 ≠ 0
  · obtain ⟨hp, rfl, hl⟩ := ha
    have hiv : ∀ c : Bool, needsIV m = true → s.ivv = false → c = true :=
      fun _ hn hf => absurd (hv hn) (by simp [hf])
    rw [cipherOn_align hk (hiv a) hp hl, cipherOn_align hk (hiv b) hp hl]
    exact endedErr_ofCipher ..
  · have hl : padded m = true → d = .dec → s.ibuf.length % 16 = 0 :=
      fun hp hd => not_not.mp fun hl => ha ⟨hp, hd, hl⟩
    rw [cipherOn_eq hk hv hl, cipherOn_eq hk hv hl]
    exact endOf_ofCipher ..

/-- Settles O32: ECB needs no IV, and with an IV loaded none is generated. -/
theorem autoIvIsIgnoredWhenNotNeeded : Obligations.AutoIvIsIgnoredWhenNotNeeded := by
  intro P m d s h
  rw [perform_ofCipher, perform_ofCipher]
  refine cipherOn_autoiv_ignored P m d true false fun hn => ?_
  obtain rfl | hv := h
  · cases hn
  · exact hv

end Sys2Proof.Machine
end

section
/-! The entropy generator and RNG: one bit (O57), the eight bits of a byte (O58), the hash calls of `n` bytes (O59), RNG as a
whole (O56), and two RNG commands in a row (O60). -/

namespace Sys2Proof.Machine

/-! ## One bit (R92 to R95) -/

theorem entBit_of_unused {P : Platform} {e : Entropy} (h : e.edpos ≠ P.le) : entBit P e = entTakeBit e := by
  rw [entBit, if_neg h]

theorem entBit_of_hashCall {P : Platform} {e e' : Entropy} (h : e.edpos = P.le)
    (hc : entHashCall P (entResampleIfDue P e) = some e') : entBit P e = entTakeBit e' := by
  rw [entBit, if_pos h, hc]

theorem entBit_of_hashFail {P : Platform} {e : Entropy} (h : e.edpos = P.le)
    (hc : entHashCall P (entResampleIfDue P e) = none) : entBit P e = .failed (entResampleIfDue P e) := by
  rw [entBit, if_pos h, hc]

/-- ENT.HASHCALL hashes the counter and the two readings (R94). -/
theorem entHashCall_of_digest {P : Platform} {e : Entropy} {d : ByteReg P.le}
    (h : P.edigest e.ecnt.toNat e.emem e.ets = some d) :
    entHashCall P e = some { e with edig := d.val, edpos := 0, ecnt := e.ecnt + 1 } := by
  rw [entHashCall, h]

theorem entHashCall_of_fail {P : Platform} {e : Entropy} (h : P.edigest e.ecnt.toNat e.emem e.ets = none) :
    entHashCall P e = none := by
  rw [entHashCall, h]

/-- A resampling is due: no sample has been taken yet, or 1,000 bits have been drawn under it (R93). -/
abbrev Entropy.due (e : Entropy) : Prop := e.esv = false ∨ 1000 ≤ e.ebits

/-- ENT.RESAMPLE_IF_DUE field by field (R93). -/
theorem entResampleIfDue_eq (P : Platform) (e : Entropy) :
    entResampleIfDue P e =
      { e with
        emem := if e.due then (P.envMem e.envReads).getD P.fallbackMem else e.emem,
        ets := if e.due then (P.envTs e.envReads).getD P.fallbackTs else e.ets,
        esv := if e.due then true else e.esv,
        ebits := if e.due then 0 else e.ebits,
        envReads := if e.due then e.envReads + 1 else e.envReads } := by
  by_cases h : e.due
  · simp only [entResampleIfDue, if_pos h]
  · simp only [entResampleIfDue, if_neg h]

/-- Settles O57: an unused digest byte, or a hash call on what the resampling left, which answers or fails. -/
theorem oneGeneratedBit : Obligations.OneGeneratedBit := by
  intro P e
  refine ⟨fun h => entBit_of_unused h, ?_⟩
  intro h due mem ts bits reads esv
  have hr : entResampleIfDue P e =
      { e with emem := mem, ets := ts, esv := esv, ebits := bits, envReads := reads } := entResampleIfDue_eq P e
  refine ⟨fun d hd => ?_, fun hd => ?_⟩
  · rw [entBit_of_hashCall h (by rw [hr]; exact entHashCall_of_digest hd)]
    rfl
  · rw [entBit_of_hashFail h (by rw [hr]; exact entHashCall_of_fail hd), hr]

/-! ## The bits of a byte (R96) -/

/-- `n` draws, all successful: the last bit drawn is bit 0, the first is bit `n - 1`, and what the accumulator held has moved up
by `n`. -/
theorem entBits_of_draws {P : Platform} : ∀ (n : Nat) (acc : Byte) (e : Nat → Entropy) (b : Nat → Bool),
    (∀ k, k < n → entBit P (e k) = .got (b k) (e (k + 1))) →
    ∃ x, entBits P n acc (e 0) = .got x (e n) ∧
      ∀ k, k < 8 → x.getLsbD k = if k < n then b (n - 1 - k) else acc.getLsbD (k - n)
  | 0, acc, _, _, _ => ⟨acc, rfl, fun _ _ => rfl⟩
  | n + 1, acc, e, b, h => by
    obtain ⟨x, hx, hbits⟩ := entBits_of_draws n ((acc <<< 1) ||| (BitVec.ofBool (b 0)).setWidth 8) (fun k => e (k + 1))
      (fun k => b (k + 1)) fun k hk => h (k + 1) (by omega)
    refine ⟨x, (entBits_succ_got (h 0 (by omega))).trans hx, fun k hk => ?_⟩
    rw [hbits k hk, shiftIn_getLsbD acc (b 0) (by omega)]
    obtain hlt | rfl | hgt := Nat.lt_trichotomy k n
    · rw [if_pos hlt, if_pos (by omega)]
      congr 1
      omega
    · simp
    · rw [if_neg (by omega), if_neg (by omega), if_neg (by omega)]
      rfl

/-- A draw that fails ends the piece of generation it belongs to, with the state it left (R100). -/
theorem entBits_of_failed_draw {P : Platform} {e' : Entropy} :
    ∀ (n m : Nat) (acc : Byte) (e : Nat → Entropy) (b : Nat → Bool), n < m →
    (∀ k, k < n → entBit P (e k) = .got (b k) (e (k + 1))) → entBit P (e n) = .failed e' → entBits P m acc (e 0) = .failed e'
  | _, 0, _, _, _, hm, _, _ => absurd hm (Nat.not_lt_zero _)
  | 0, _ + 1, _, _, _, _, _, hf => entBits_succ_failed hf
  | n + 1, m + 1, _, e, b, hm, h, hf =>
    (entBits_succ_got (h 0 n.succ_pos)).trans <|
      entBits_of_failed_draw n m _ (fun k => e (k + 1)) (fun k => b (k + 1)) (Nat.lt_of_succ_lt_succ hm)
        (fun k hk => h (k + 1) (Nat.succ_lt_succ hk)) hf

/-- The state after `k` bits taken from the digest in hand. -/
def Entropy.taken (e : Entropy) (k : Nat) : Entropy := { e with edpos := e.edpos + k, ebits := e.ebits + k }

/-- While the digest in hand lasts, draw `k` takes its byte at `EDPOS + k` (R92, R95). -/
theorem entBit_taken {P : Platform} {e : Entropy} {k : Nat} (h : e.edpos + k < P.le) :
    entBit P (e.taken k) = .got ((e.edig.getD (e.edpos + k) 0).getLsbD 0) (e.taken (k + 1)) :=
  entBit_of_unused h.ne

/-- Eight successful draws make a byte, the first bit drawn as bit 7 (R96). -/
theorem entByte_of_draws {P : Platform} {e : Nat → Entropy} {b : Nat → Bool}
    (h : ∀ k, k < 8 → entBit P (e k) = .got (b k) (e (k + 1))) :
    ∃ x, entByte P (e 0) = .got x (e 8) ∧ ∀ k, k < 8 → x.getLsbD (7 - k) = b k := by
  obtain ⟨x, hx, hbits⟩ := entBits_of_draws 8 0 e b h
  refine ⟨x, hx, fun k hk => ?_⟩
  rw [hbits (7 - k) (by omega), if_pos (by omega)]
  congr 1
  omega

/-- Settles O58: eight draws into an empty accumulator. -/
theorem byteFromUnusedDigestBytes : Obligations.ByteFromUnusedDigestBytes :=
  ⟨fun _ _ _ h => entByte_of_draws h,
    fun _ e b n _ hn h hf => entBits_of_failed_draw n 8 0 e b hn h hf,
    fun _ e he => entByte_of_draws (e := e.taken) fun _ hk => entBit_taken (by omega)⟩

/-! ## Bits consumed and hash calls made (R94, R97) -/

/-- From `e` to `e'`, `bits` bits have been taken and `calls` hash calls made. Counted from the start of the digest in hand at
`e`, each call moves the origin by LE. A call is made for a bit only, so one bit at least has been taken since the last. -/
structure Consumed (P : Platform) (bits calls : Nat) (e e' : Entropy) : Prop where
  ecnt : e'.ecnt = e.ecnt + BitVec.ofNat 64 calls
  edposLe : e'.edpos ≤ P.le
  position : e.edpos + bits = calls * P.le + e'.edpos
  afterCall : calls ≠ 0 → e'.edpos ≠ 0

theorem Consumed.refl {P : Platform} {e : Entropy} (h : e.edpos ≤ P.le) : Consumed P 0 0 e e where
  ecnt := by simp
  edposLe := h
  position := by simp
  afterCall := by simp

theorem Consumed.trans {P : Platform} {m n c d : Nat} {e e' e'' : Entropy} (h : Consumed P m c e e')
    (h' : Consumed P n d e' e'') : Consumed P (m + n) (c + d) e e'' where
  ecnt := by rw [h'.ecnt, h.ecnt, BitVec.add_assoc, BitVec.ofNat_add]
  edposLe := h'.edposLe
  position := by
    have h1 := h.position
    have h2 := h'.position
    rw [Nat.add_mul]
    omega
  afterCall hcd := by
    obtain rfl | hd := Nat.eq_zero_or_pos d
    · have h1 := h.afterCall hcd
      have h2 := h'.position
      omega
    · exact h'.afterCall hd.ne'

/-- A bit is taken from the digest in hand, or from that of the one hash call made for it. -/
theorem consumed_entBit {P : Platform} {e e' : Entropy} {b : Bool} (he : e.edpos ≤ P.le) (h : entBit P e = .got b e') :
    ∃ calls, Consumed P 1 calls e e' := by
  have hle := P.le_ge
  by_cases hp : e.edpos = P.le
  · cases hc : entHashCall P (entResampleIfDue P e) with
    | none =>
      rw [entBit_of_hashFail hp hc] at h
      cases h
    | some e₁ =>
      rw [entBit_of_hashCall hp hc] at h
      cases h
      obtain ⟨_, _, _, _, hcnt⟩ := entResampleIfDue_sampled P e
      obtain ⟨_, hpos, hcnt₁, _, _⟩ := entHashCall_some hc
      exact ⟨1, by simp [hcnt₁, hcnt], by simp only; omega, by simp only; omega, by simp⟩
  · rw [entBit_of_unused hp] at h
    cases h
    exact ⟨0, by simp, by simp only; omega, by simp, by simp⟩

theorem consumed_entBits {P : Platform} : ∀ (n : Nat) {acc x : Byte} {e e' : Entropy}, e.edpos ≤ P.le →
    entBits P n acc e = .got x e' → ∃ calls, Consumed P n calls e e'
  | 0, _, _, _, _, he, h => by
    cases h
    exact ⟨0, .refl he⟩
  | n + 1, _, _, e, _, he, h => by
    cases hb : entBit P e with
    | failed e₁ =>
      rw [entBits_succ_failed hb] at h
      cases h
    | got b e₁ =>
      rw [entBits_succ_got hb] at h
      obtain ⟨c, hc⟩ := consumed_entBit he hb
      obtain ⟨d, hd⟩ := consumed_entBits n hc.edposLe h
      exact ⟨c + d, n.add_comm 1 ▸ hc.trans hd⟩

/-- `n + 1` bytes are one byte and then `n` (R97). -/
theorem entBytes_succ_eq_got {P : Platform} {n : Nat} {e e'' : Entropy} {cs : Bytes} :
    entBytes P (n + 1) e = .got cs e'' ↔
      ∃ c bs e', entByte P e = .got c e' ∧ entBytes P n e' = .got bs e'' ∧ cs = c :: bs := by
  rw [entBytes]
  cases hc : entByte P e with
  | failed e' => simp
  | got c e' =>
    cases hb : entBytes P n e' with
    | failed e₂ => simp [hb]
    | got bs e₂ => simp [hb, and_comm, eq_comm]

theorem consumed_entBytes {P : Platform} : ∀ (n : Nat) {e e' : Entropy} {bs : Bytes}, e.edpos ≤ P.le →
    entBytes P n e = .got bs e' → ∃ calls, Consumed P (8 * n) calls e e'
  | 0, _, _, _, he, h => by
    cases h
    exact ⟨0, .refl he⟩
  | n + 1, _, _, _, he, h => by
    obtain ⟨_, _, _, hb, hn, _⟩ := entBytes_succ_eq_got.mp h
    obtain ⟨c, hc⟩ := consumed_entBits 8 he hb
    obtain ⟨d, hd⟩ := consumed_entBytes n hc.edposLe hn
    exact ⟨c + d, by rw [Nat.mul_succ, Nat.add_comm]; exact hc.trans hd⟩

/-- The number of hash calls: none while the unused digest bytes last, then one for every LE bits begun (R97). -/
theorem Consumed.calls_eq {P : Platform} {bits calls : Nat} {e e' : Entropy} (h : Consumed P bits calls e e')
    (he : e.edpos ≤ P.le) :
    calls = if P.le - e.edpos < bits then (bits - (P.le - e.edpos) + P.le - 1) / P.le else 0 := by
  have hle := P.le_ge
  have hpos := h.position
  have hend := h.edposLe
  obtain rfl | hc := Nat.eq_zero_or_pos calls
  · rw [if_neg (by omega)]
  · have hafter := h.afterCall hc.ne'
    have hmul : P.le ≤ calls * P.le := Nat.le_mul_of_pos_left _ hc
    have hnum : bits - (P.le - e.edpos) + P.le - 1 = P.le * calls + (e'.edpos - 1) := by
      rw [Nat.mul_comm P.le]
      omega
    rw [if_pos (by omega), hnum, Nat.mul_add_div (by omega), Nat.div_eq_of_lt (by omega), Nat.add_zero]

/-- Settles O59: the bits and hash calls of `n` bytes, draw by draw. -/
theorem hashCallsOfGeneratedBytes : Obligations.HashCallsOfGeneratedBytes := by
  intro P n e e' bs he h a calls
  obtain ⟨c, hc⟩ := consumed_entBytes n he h
  have hcalls : calls = c := (hc.calls_eq he).symm
  have hpos := hc.position
  have hend := hc.edposLe
  rw [hcalls]
  exact ⟨entBytes_length h, hc.ecnt, hend, by omega⟩

/-! ## RNG (R98 to R100) -/

/-- RNG when its bytes are drawn. -/
theorem rngOn_of_got {P : Platform} {n : Nat} {s : State} {bs : Bytes} {e : Entropy} (h : entBytes P n s.ent = .got bs e) :
    rngOn P n s = endedOk (encode (.rng n)) { s with ent := e, obuf := bs, blkidx := 0 } := by
  rw [rngOn_eq, h]
  rfl

/-- RNG when a hash call fails. -/
theorem rngOn_of_failed {P : Platform} {n : Nat} {s : State} {e : Entropy} (h : entBytes P n s.ent = .failed e) :
    rngOn P n s = endedErr (encode (.rng n)) .hash { s with ent := e, blkidx := 0 } := by
  rw [rngOn_eq, h]
  rfl

/-- RNG ends normally only when its bytes are drawn. -/
theorem entBytes_of_rngOn_ok {P : Platform} {n : Nat} {s : State} (h : (rngOn P n s).err = false) :
    ∃ bs e, entBytes P n s.ent = .got bs e := by
  cases hb : entBytes P n s.ent with
  | got bs e => exact ⟨bs, e, rfl⟩
  | failed e =>
    rw [rngOn_of_failed hb] at h
    cases h

/-- Settles O56: ENT.BYTES draws the bytes, or fails. -/
theorem rngResult : Obligations.RngResult := by
  intro n s
  rw [exec_eq_perform]
  cases h : entBytes Config.platform n s.ent with
  | got bs e => exact congrArg _ (rngOn_of_got h)
  | failed e => exact congrArg _ (rngOn_of_failed h)

/-- `m + n` bytes are `m` bytes and then `n` from the state they leave (R97, R99). -/
theorem entBytes_add_eq_got {P : Platform} {n : Nat} : ∀ (m : Nat) {e e'' : Entropy} {cs : Bytes},
    entBytes P (m + n) e = .got cs e'' →
      ∃ as bs e', entBytes P m e = .got as e' ∧ entBytes P n e' = .got bs e'' ∧ cs = as ++ bs
  | 0, e, _, cs, h => ⟨[], cs, e, rfl, Nat.zero_add n ▸ h, rfl⟩
  | m + 1, _, _, _, h => by
    rw [Nat.add_right_comm] at h
    obtain ⟨c, rest, e₁, hc, hrest, rfl⟩ := entBytes_succ_eq_got.mp h
    obtain ⟨as, bs, e₂, ha, hb, rfl⟩ := entBytes_add_eq_got m hrest
    exact ⟨c :: as, bs, e₂, entBytes_succ_eq_got.mpr ⟨c, as, e₁, hc, ha, rfl⟩, hb, rfl⟩

/-- Settles O60: the second command draws from the entropy state the first has left. -/
theorem rngStreamIsContinuous : Obligations.RngStreamIsContinuous := by
  intro P m n s hok t
  obtain ⟨cs, e₂, hcs⟩ := entBytes_of_rngOn_ok hok
  obtain ⟨as, bs, e₁, ha, hb, rfl⟩ := entBytes_add_eq_got m hcs
  have ht : t = endedOk (encode (.rng m)) { s with ent := e₁, obuf := as, blkidx := 0 } := rngOn_of_got ha
  have hfirst : t.ent = e₁ := by rw [ht, endedOk_ent]
  have hsecond : perform P (.rng n) t = endedOk (encode (.rng n)) { t with ent := e₂, obuf := bs, blkidx := 0 } :=
    rngOn_of_got (by rw [hfirst, hb])
  have hboth : perform P (.rng (m + n)) s =
      endedOk (encode (.rng (m + n))) { s with ent := e₂, obuf := as ++ bs, blkidx := 0 } := rngOn_of_got hcs
  rw [hsecond, hboth, ht]
  exact ⟨rfl, rfl, rfl, rfl⟩

end Sys2Proof.Machine
end

section
/-! O53 to O55: the key-derivation engine (R112 to R117). The loop of KRUN, `kdfLoop`, is tied once to the iterated state
`kdfState`; how KDF ends then follows from the state the loop has come to. -/

namespace Sys2Proof.Machine

/-! ## KXF (R114) -/

/-- `rotl8` on integers (R19): the mask is that of the rule. -/
theorem rotl8_toNat (x : Byte) (n : Nat) :
    (rotl8 x n).toNat = ((x.toNat <<< n) ||| (x.toNat >>> (8 - n))) &&& 0xFF := by
  have hshift : x.toNat >>> (8 - n) < 2 ^ 8 := lt_of_le_of_lt (Nat.shiftRight_le ..) x.isLt
  rw [rotl8, BitVec.toNat_or, BitVec.toNat_shiftLeft, BitVec.toNat_ushiftRight,
    Nat.and_two_pow_sub_one_eq_mod _ 8, Nat.or_mod_two_pow, Nat.mod_eq_of_lt hshift]

theorem kxfByte_toNat (i j : Nat) (x : Byte) :
    (kxfByte i j x).toNat = (((x.toNat <<< 3) ||| (x.toNat >>> 5)) &&& 0xFF) ^^^ ((i >>> (j % 8)) &&& 0xFF) := by
  rw [kxfByte, BitVec.toNat_xor, rotl8_toNat, BitVec.toNat_ofNat, Nat.and_two_pow_sub_one_eq_mod (i >>> (j % 8)) 8]

theorem kxf_getD (s : ByteReg 64) (i : Nat) {j : Nat} (hj : j < 64) :
    (kxf s i).val.getD j 0 = kxfByte i j (s.val.getD j 0) := by
  have hs : j < s.val.length := s.property.symm ▸ hj
  simp [kxf, List.getD_eq_getElem?_getD, hj, hs]

/-- Settles O53: byte `j` of KXF is `kxfByte` of byte `j`, and that is the formula of R114. -/
theorem kxfBytes : Obligations.KxfBytes := by
  intro s i j hj
  rw [kxf_getD s i hj, kxfByte_toNat]

/-! ## The loop of KRUN and the iterated state (R113) -/

theorem kdfState_succ_eq_some {P : Platform} {m : Bytes} {n : Nat} {st : ByteReg 64} :
    kdfState P m (n + 1) = some st ↔
      ∃ st₀ h, kdfState P m n = some st₀ ∧ P.h512 st₀.val = some h ∧ kxf h n = st := by
  simp only [kdfState, Option.bind_eq_some_iff, Option.map_eq_some_iff, exists_and_left]

/-- A state after some iterations is one that step 1 has begun. -/
theorem h512_of_kdfState {P : Platform} {m : Bytes} : ∀ {n : Nat} {st : ByteReg 64},
    kdfState P m n = some st → ∃ h, P.h512 m = some h
  | 0, st, hst => ⟨st, hst⟩
  | _ + 1, _, hst =>
    have ⟨_, _, hst₀, _, _⟩ := kdfState_succ_eq_some.mp hst
    h512_of_kdfState hst₀

/-- Where `n` iterations have come to the state `st`, the loop goes on from iteration `n` and `st`. -/
theorem kdfLoop_of_kdfState {P : Platform} {m : Bytes} {h : ByteReg 64} (hm : P.h512 m = some h) :
    ∀ {n : Nat} (k : Nat) {st : ByteReg 64}, kdfState P m n = some st → kdfLoop P (n + k) 0 h = kdfLoop P k n st
  | 0, k, st, hst => by
    obtain rfl : h = st := Option.some.inj (hm.symm.trans hst)
    rw [Nat.zero_add]
  | n + 1, k, st, hst => by
    obtain ⟨st₀, h₁, hst₀, hh, rfl⟩ := kdfState_succ_eq_some.mp hst
    rw [Nat.add_right_comm, Nat.add_assoc, kdfLoop_of_kdfState hm (k + 1) hst₀, kdfLoop, hh]

/-- Where the hash never fails, no iteration does. -/
theorem exists_kdfState {P : Platform} (hP : ∀ m, ∃ h, P.h512 m = some h) (m : Bytes) : ∀ n, ∃ st, kdfState P m n = some st
  | 0 => hP m
  | n + 1 =>
    have ⟨st, hst⟩ := exists_kdfState hP m n
    have ⟨h, hh⟩ := hP st.val
    ⟨kxf h n, kdfState_succ_eq_some.mpr ⟨st, h, hst, hh, rfl⟩⟩

/-! ## How KDF ends (R115 to R117) -/

theorem kdfOn_of_h512_none {P : Platform} {s : State} (hm : P.h512 s.ibuf = none) :
    kdfOn P s = endedErr (encode .kdf) .hash { s with blkidx := 0 } := by
  obtain ⟨_, h⟩ | ⟨_, hm', _⟩ | ⟨_, hm', _⟩ := kdfOn_cases P s
  · exact h
  · cases hm.symm.trans hm'
  · cases hm.symm.trans hm'

/-- How KDF ends once step 1 has its hash: with E_HASH or with the key in OBUF, as the loop has ended. -/
theorem kdfOn_of_kdfLoop {P : Platform} {s : State} {h : ByteReg 64} {r : KdfEnd} (hm : P.h512 s.ibuf = some h)
    (hr : kdfLoop P kdfRounds 0 h = r) :
    kdfOn P s =
      if r.failed then endedErr (encode .kdf) .hash { s with kst := r.kst, krnd := r.krnd, blkidx := 0 }
      else endedOk (encode .kdf) { s with kst := r.kst, krnd := r.krnd, obuf := r.kst.val.take 16, blkidx := 0 } := by
  subst hr
  obtain ⟨hm', _⟩ | ⟨h', hm', hf, hend⟩ | ⟨h', hm', hf, hend⟩ := kdfOn_cases P s
  · cases hm.symm.trans hm'
  · obtain rfl : h = h' := Option.some.inj (hm.symm.trans hm')
    rw [hend, hf, if_pos rfl]
  · obtain rfl : h = h' := Option.some.inj (hm.symm.trans hm')
    rw [hend, hf, if_neg Bool.false_ne_true]

/-- R113, R117: the hash of iteration `i` fails, and the loop stops there. -/
theorem kdfOn_of_iteration_fails {P : Platform} {s : State} {i : Nat} {st : ByteReg 64} (hi : i < kdfRounds)
    (hst : kdfState P s.ibuf i = some st) (hfail : P.h512 st.val = none) :
    kdfOn P s = endedErr (encode .kdf) .hash { s with kst := st, krnd := i, blkidx := 0 } := by
  obtain ⟨h, hm⟩ := h512_of_kdfState hst
  obtain ⟨k, hk⟩ := Nat.exists_eq_add_of_lt hi
  have hloop : kdfLoop P kdfRounds 0 h = { kst := st, krnd := i, failed := true } := by
    rw [hk, Nat.add_assoc, kdfLoop_of_kdfState hm (k + 1) hst, kdfLoop, hfail]
  rw [kdfOn_of_kdfLoop hm hloop, if_pos rfl]

/-- R115, R116: every iteration has its hash, and the key is the first 16 bytes of the last state. -/
theorem kdfOn_of_kdfState {P : Platform} {s : State} {st : ByteReg 64} (hst : kdfState P s.ibuf kdfRounds = some st) :
    kdfOn P s = endedOk (encode .kdf) { s with kst := st, krnd := kdfRounds, obuf := st.val.take 16, blkidx := 0 } := by
  obtain ⟨h, hm⟩ := h512_of_kdfState hst
  have hloop : kdfLoop P kdfRounds 0 h = { kst := st, krnd := kdfRounds, failed := false } :=
    kdfLoop_of_kdfState hm 0 hst
  rw [kdfOn_of_kdfLoop hm hloop, if_neg Bool.false_ne_true]

/-- SHA-512 answers every message (R117, R200). -/
theorem exists_h512_platform (m : Bytes) : ∃ h, Config.platform.h512 m = some h := ⟨Sha512.hash m, rfl⟩

/-- Settles O54: with SHA-512 behind H512 the state after 100,000 iterations exists, and KDF ends with it. -/
theorem kdfResult : Obligations.KdfResult := by
  intro s
  obtain ⟨st, hst⟩ := exists_kdfState exists_h512_platform s.ibuf kdfRounds
  refine ⟨st, hst, ?_⟩
  rw [exec_eq_perform]
  exact congrArg _ (kdfOn_of_kdfState hst)

/-- Settles O55: KDF fails with the hash of step 1 or of an iteration, and SHA-512 does not fail. -/
theorem kdfHashFailure : Obligations.KdfHashFailure := by
  intro P s
  refine ⟨kdfOn_of_h512_none, fun i st hi hst hfail => kdfOn_of_iteration_fails hi hst hfail, ?_⟩
  obtain ⟨st, hst⟩ := exists_kdfState exists_h512_platform s.ibuf kdfRounds
  have hend : perform Config.platform .kdf s = _ := kdfOn_of_kdfState hst
  rw [hend, endedOk_err]

end Sys2Proof.Machine
end

section
/-! The block modes: each command's next state (O33 to O36), and ECB without IV, IVV and FB (O43). -/

namespace Sys2Proof.Machine

/-- A cipher command whose checks pass and which needs no new IV runs its mode's rule over the input units (R125, R186). -/
theorem exec_ofCipher {m : Mode} {d : Dir} {a : Bool} {s : State} (hk : s.klen ≠ .none)
    (hv : needsIV m = true → s.ivv = true) (ha : padded m = true → d = .dec → s.ibuf.length % 16 = 0) :
    exec (Instr.ofCipher m d a) s = .next (endOf m d (encode (Instr.ofCipher m d a))
      (blockLoop (ruleOf Config.platform m d s.keyInForce) (if needsIV m then s.iv else s.fb) (inputUnits m d s.ibuf)) s) := by
  rw [exec_eq_perform, perform_ofCipher, cipherOn_eq hk hv ha]

/-- Settles O33: ECB needs no IV, and an encryption takes every length. -/
theorem ecbEncResult : Obligations.EcbEncResult :=
  fun a _ hk => exec_ofCipher (m := .ecb) (d := .enc) (a := a) hk nofun nofun

/-- Settles O34. -/
theorem ecbDecResult : Obligations.EcbDecResult :=
  fun a _ hk hl => exec_ofCipher (m := .ecb) (d := .dec) (a := a) hk nofun fun _ _ => hl

/-- Settles O35: CBC starts from the loaded IV. -/
theorem cbcEncResult : Obligations.CbcEncResult :=
  fun a _ hk hv => exec_ofCipher (m := .cbc) (d := .enc) (a := a) hk (fun _ => hv) nofun

/-- Settles O36. -/
theorem cbcDecResult : Obligations.CbcDecResult :=
  fun a _ hk hv hl => exec_ofCipher (m := .cbc) (d := .dec) (a := a) hk (fun _ => hv) fun _ _ => hl

/-! ## ECB and the IV registers (R129) -/

/-- The ECB loop from another FB is the loop with that FB at its end. -/
theorem blockLoop_ecbRule (f : Bytes → Block → Option Block) (key : Bytes) (fb fb' : Block) (us : List Bytes) :
    blockLoop (ecbRule f key) fb' us = { blockLoop (ecbRule f key) fb us with fb := fb' } := by
  induction us with
  | nil => rfl
  | cons u us ih =>
    simp only [blockLoop, ecbRule]
    cases f key (toReg 16 u) with
    | none => rfl
    | some c =>
      simp only [Option.map_some]
      rw [ih]

theorem blockLoop_ecb (P : Platform) (d : Dir) (key : Bytes) (fb fb' : Block) (us : List Bytes) :
    blockLoop (ruleOf P .ecb d key) fb' us = { blockLoop (ruleOf P .ecb d key) fb us with fb := fb' } := by
  cases d <;> exact blockLoop_ecbRule ..

/-- The end of a command keeps IV and IVV, and takes FB from the loop. -/
theorem endOf_with_ivfb (m : Mode) (d : Dir) (w : Word) (r : LoopEnd) (s : State) (v : Block) (b : Bool) (f : Block) :
    endOf m d w { r with fb := f } { s with iv := v, ivv := b, fb := f } =
      { endOf m d w r s with iv := v, ivv := b, fb := f } := by
  unfold endOf unpaddedEnd cipherEnd
  split
  · split
    · rfl
    · dsimp only
      split <;> rfl
  · split <;> rfl

/-- Other values of IV, IVV and FB change nothing in an ECB command but themselves, whichever way it ends. -/
theorem cipherOn_ecb_with_ivfb (P : Platform) (d : Dir) (a : Bool) (s : State) (v : Block) (b : Bool) (f : Block) :
    cipherOn P .ecb d a (blockStepOf .ecb d) { s with iv := v, ivv := b, fb := f } =
      { cipherOn P .ecb d a (blockStepOf .ecb d) s with iv := v, ivv := b, fb := f } := by
  by_cases hk : s.klen = .none
  · rw [cipherOn_keylen hk, cipherOn_keylen (by exact hk)]
    rfl
  by_cases ha : d = .dec ∧ s.ibuf.length % 16 ≠ 0
  · obtain ⟨rfl, hl⟩ := ha
    rw [cipherOn_align (m := .ecb) hk nofun rfl hl, cipherOn_align (m := .ecb) (by exact hk) nofun rfl (by exact hl)]
    rfl
  · have hl : padded .ecb = true → d = .dec → s.ibuf.length % 16 = 0 :=
      fun _ hd => not_not.mp fun hl => ha ⟨hd, hl⟩
    rw [cipherOn_eq (m := .ecb) hk nofun hl, cipherOn_eq (m := .ecb) (by exact hk) nofun (by exact hl), ← endOf_with_ivfb]
    exact congrArg (fun r => endOf _ _ _ r _) (blockLoop_ecb P d s.keyInForce s.fb f (inputUnits .ecb d s.ibuf))

/-- Settles O43: the last part holds without AUTOIV by the frame, and AUTOIV changes CUR only. -/
theorem ecbReadsNoIvAndNoFeedback : Obligations.EcbReadsNoIvAndNoFeedback := by
  intro P d a s v b f
  refine ⟨?_, autoIvIsIgnoredWhenNotNeeded P .ecb d s (.inl rfl), ?_⟩
  · simp only [perform_ofCipher, cipherOn_ecb_with_ivfb]
  · rw [perform_ofCipher, cipherOn_autoiv_ignored P .ecb d a false nofun]
    exact (frame_cipherOn P .ecb d false s).ent (by cases d <;> nofun) (.inr (autoivBit_ofCipher ..))

end Sys2Proof.Machine
end

section
/-! PAD and UNPAD (R126, R127): the padded length (O45), and UNPAD as the inverse of PAD (O46). -/

namespace Sys2Proof.Machine

/-- Settles O45. -/
theorem padAppendsItsLength : Obligations.PadAppendsItsLength :=
  fun m => ⟨16 - m.length % 16, by omega, by omega, pad_eq m, pad_length m⟩

/-- `p` bytes equal to `p`, `1 <= p <= 16`, are stripped from any sequence. -/
theorem unpad_append_replicate (r : Bytes) {p : Nat} (h1 : 1 ≤ p) (h16 : p ≤ 16) :
    unpad (r ++ List.replicate p (BitVec.ofNat 8 p)) = some r := by
  have hlast : (r ++ List.replicate p (BitVec.ofNat 8 p)).getLast? = some (BitVec.ofNat 8 p) := by
    simp [List.getLast?_append, List.getLast?_replicate, show p ≠ 0 by omega]
  have hp : (BitVec.ofNat 8 p).toNat = p := by simp; omega
  have hlen : (r ++ List.replicate p (BitVec.ofNat 8 p)).length - p = r.length := by simp
  simp only [unpad, hlast, hp, hlen, List.drop_left, List.take_left]
  rw [if_neg (by omega), if_pos (by simp)]

/-- What UNPAD strips: on a sequence of at least one block, the bytes that end it. -/
theorem eq_append_replicate_of_unpad {m r : Bytes} (hm : m.length % 16 = 0) (h : unpad m = some r) :
    ∃ p, 1 ≤ p ∧ p ≤ 16 ∧ m = r ++ List.replicate p (BitVec.ofNat 8 p) := by
  unfold unpad at h
  split at h
  · cases h
  next p hlast =>
    have hne : m ≠ [] := by
      rintro rfl
      cases hlast
    have hpos := List.length_pos_iff.mpr hne
    split_ifs at h with hrange hall
    cases h
    refine ⟨p.toNat, by omega, by omega, ?_⟩
    have hend : m.drop (m.length - p.toNat) = List.replicate p.toNat (BitVec.ofNat 8 p.toNat) := by
      rw [List.eq_replicate_iff]
      refine ⟨by simp; omega, fun x hx => ?_⟩
      simpa using List.all_eq_true.mp hall x hx
    rw [← hend, List.take_append_drop]

/-- Settles O46. -/
theorem unpadStripsExactlyValidPadding : Obligations.UnpadStripsExactlyValidPadding := by
  refine fun m r hm => ⟨eq_append_replicate_of_unpad hm, ?_⟩
  rintro ⟨p, h1, h16, rfl⟩
  exact unpad_append_replicate r h1 h16

/-- UNPAD undoes PAD (R143). -/
theorem unpad_pad (m : Bytes) : unpad (pad m) = some m := by
  rw [pad_eq]
  exact unpad_append_replicate m (by omega) (by omega)

/-- PAD undoes UNPAD on whole blocks: the length fixes the number of pad bytes. -/
theorem pad_of_unpad {m r : Bytes} (hm : m.length % 16 = 0) (h : unpad m = some r) : pad r = m := by
  obtain ⟨p, h1, h16, rfl⟩ := eq_append_replicate_of_unpad hm h
  have hp : 16 - r.length % 16 = p := by
    rw [List.length_append, List.length_replicate] at hm
    omega
  rw [pad_eq, hp]

end Sys2Proof.Machine
end

section
/-! The block loop of a cipher command that ended normally: what went into it, what came out, and so the output length and
BLKIDX (O47). -/

namespace Sys2Proof.Machine

/-! ## What goes into the block loop, and what FINAL makes of its output (R186, R187) -/

/-- The bytes a cipher command cuts into its input units. -/
def inputBytes (m : Mode) (d : Dir) (ibuf : Bytes) : Bytes := if padded m = true ∧ d = .enc then pad ibuf else ibuf

/-- What FINAL leaves in OBUF after a loop that ran through, none for E_PAD. -/
def finished (m : Mode) (d : Dir) (out : Bytes) : Option Bytes := if padded m = true ∧ d = .dec then unpad out else some out

theorem inputUnits_eq (m : Mode) (d : Dir) (ibuf : Bytes) :
    inputUnits m d ibuf = unitsOf (blockCount m d ibuf.length) (inputBytes m d ibuf) := rfl

/-- The units cover the bytes, and those of a padded mode are whole blocks. -/
theorem inputBytes_length {m : Mode} {d : Dir} {ibuf : Bytes} (ha : padded m = true → d = .dec → ibuf.length % 16 = 0) :
    (inputBytes m d ibuf).length ≤ 16 * blockCount m d ibuf.length ∧
      (padded m = true → (inputBytes m d ibuf).length = 16 * blockCount m d ibuf.length) := by
  cases hp : padded m <;> cases d
  · simp [inputBytes, blockCount, hp]
    omega
  · simp [inputBytes, blockCount, hp]
    omega
  · simp [inputBytes, blockCount, hp]
  · have := ha hp rfl
    simp [inputBytes, blockCount, hp]
    omega

theorem inputUnits_flatten {m : Mode} {d : Dir} {ibuf : Bytes} (ha : padded m = true → d = .dec → ibuf.length % 16 = 0) :
    (inputUnits m d ibuf).flatten = inputBytes m d ibuf :=
  unitsOf_flatten (inputBytes_length ha).1

/-- A unit has at most 16 bytes (R150), and in a padded mode exactly 16 (R186). -/
theorem length_of_mem_inputUnits {m : Mode} {d : Dir} {ibuf u : Bytes}
    (ha : padded m = true → d = .dec → ibuf.length % 16 = 0) (hu : u ∈ inputUnits m d ibuf) :
    u.length ≤ 16 ∧ (padded m = true → u.length = 16) := by
  obtain ⟨i, hi, rfl⟩ := List.mem_iff_getElem.mp hu
  have hget : (inputUnits m d ibuf)[i] = memRead (inputBytes m d ibuf) (16 * i) 16 :=
    inputUnits_get (List.getElem?_eq_getElem hi)
  rw [inputUnits_length] at hi
  rw [hget, memRead_length]
  refine ⟨by omega, fun hp => ?_⟩
  have := (inputBytes_length ha).2 hp
  omega

/-- After a loop that ran through, with FINAL passed, the command has ended normally. -/
theorem endOf_of_finished {m : Mode} {d : Dir} {w : Word} {r : LoopEnd} {s : State} {out : Bytes} (hr : r.failed = false)
    (h : finished m d r.out = some out) :
    endOf m d w r s = endedOk w { s with fb := r.fb, blkidx := r.blocks, obuf := out } := by
  unfold finished at h
  split at h
  next hp => simp [endOf, hp, unpaddedEnd, hr, h]
  next hp =>
    cases h
    simp [endOf, hp, cipherEnd, hr]

theorem endOf_ok_of_finished {m : Mode} {d : Dir} {w : Word} {r : LoopEnd} {s : State} {out : Bytes} (hr : r.failed = false)
    (h : finished m d r.out = some out) : (endOf m d w r s).err = false ∧ (endOf m d w r s).obuf = out := by
  rw [endOf_of_finished hr h]
  exact ⟨rfl, rfl⟩

/-- A command that has ended normally after its loop: the loop ran through and FINAL passed. -/
theorem finished_of_endOf {m : Mode} {d : Dir} {w : Word} {r : LoopEnd} {s : State} (h : (endOf m d w r s).err = false) :
    r.failed = false ∧ ∃ out, finished m d r.out = some out := by
  unfold endOf at h
  split at h
  next hp =>
    unfold unpaddedEnd at h
    cases hr : r.failed with
    | true => simp [hr] at h
    | false =>
      cases hu : unpad r.out with
      | none => simp [hr, hu] at h
      | some out => exact ⟨rfl, out, (if_pos hp).trans hu⟩
  next hp =>
    unfold cipherEnd at h
    cases hr : r.failed with
    | true => simp [hr] at h
    | false => exact ⟨rfl, r.out, if_neg hp⟩

/-- What is then in OBUF and BLKIDX. -/
theorem loopEnd_of_endOf {m : Mode} {d : Dir} {w : Word} {r : LoopEnd} {s : State} (h : (endOf m d w r s).err = false) :
    r.failed = false ∧ finished m d r.out = some (endOf m d w r s).obuf ∧ (endOf m d w r s).blkidx = r.blocks := by
  obtain ⟨hr, out, hf⟩ := finished_of_endOf h
  rw [endOf_of_finished hr hf]
  exact ⟨hr, hf, rfl⟩

/-! ## A block loop that ran through -/

/-- Its first step. -/
theorem blockLoop_cons_of_ok {rule : Block → Bytes → Option (Bytes × Block)} {fb : Block} {u : Bytes} {us : List Bytes}
    (h : (blockLoop rule fb (u :: us)).failed = false) :
    ∃ o fb', rule fb u = some (o, fb') ∧ (blockLoop rule fb' us).failed = false ∧
      blockLoop rule fb (u :: us) = { blockLoop rule fb' us with
        out := o ++ (blockLoop rule fb' us).out, blocks := (blockLoop rule fb' us).blocks + 1 } := by
  cases hr : rule fb u with
  | none => simp [blockLoop, hr] at h
  | some r =>
    refine ⟨r.1, r.2, rfl, ?_, ?_⟩
    · simpa [blockLoop, hr] using h
    · simp only [blockLoop, hr]

theorem blockLoop_cons_of_some {rule : Block → Bytes → Option (Bytes × Block)} {fb fb' : Block} {u o : Bytes}
    (h : rule fb u = some (o, fb')) (us : List Bytes) :
    blockLoop rule fb (u :: us) = { blockLoop rule fb' us with
      out := o ++ (blockLoop rule fb' us).out, blocks := (blockLoop rule fb' us).blocks + 1 } := by
  simp only [blockLoop, h]

/-- Its length and BLKIDX, when the rule answers a unit of the length it takes. -/
theorem blockLoop_lengths {rule : Block → Bytes → Option (Bytes × Block)} {us : List Bytes} {fb : Block}
    (hl : ∀ u ∈ us, ∀ fb o fb', rule fb u = some (o, fb') → o.length = u.length)
    (h : (blockLoop rule fb us).failed = false) :
    (blockLoop rule fb us).blocks = us.length ∧ (blockLoop rule fb us).out.length = us.flatten.length := by
  induction us generalizing fb with
  | nil => exact ⟨rfl, rfl⟩
  | cons u us ih =>
    obtain ⟨o, fb', ho, hok, heq⟩ := blockLoop_cons_of_ok h
    obtain ⟨ih1, ih2⟩ := ih (fun u hu => hl u (List.mem_cons_of_mem _ hu)) hok
    have ho' := hl u List.mem_cons_self fb o fb' ho
    simp [heq, ih1, ih2, ho']

/-- A loop whose rule always answers runs through. -/
theorem blockLoop_ok {rule : Block → Bytes → Option (Bytes × Block)} (hr : ∀ fb u, (rule fb u).isSome) (fb : Block)
    (us : List Bytes) : (blockLoop rule fb us).failed = false := by
  induction us generalizing fb with
  | nil => rfl
  | cons u us ih =>
    obtain ⟨r, h⟩ := Option.isSome_iff_exists.mp (hr fb u)
    rw [blockLoop_cons_of_some h]
    exact ih r.2

/-- Under BLK_NOFAIL every rule answers, on keys of legal length. -/
theorem ruleOf_isSome {P : Platform} (hP : P.BlkNoFail) (m : Mode) (d : Dir) {key : Bytes} (hk : key.length ∈ [16, 24, 32])
    (fb : Block) (u : Bytes) : (ruleOf P m d key fb u).isSome := by
  have he := fun x => (hP key x hk).1
  have hd := fun x => (hP key x hk).2
  cases m <;> cases d <;> simp [ruleOf, ecbRule, cbcEncRule, cbcDecRule, cfbEncRule, cfbDecRule, ofbRule, ctrRule, he, hd]

/-- Every rule answers a unit of the length it takes. -/
theorem ruleOf_out_length {P : Platform} {m : Mode} {d : Dir} {key u o : Bytes} {fb fb' : Block} (hl : u.length ≤ 16)
    (hp : padded m = true → u.length = 16) (h : ruleOf P m d key fb u = some (o, fb')) : o.length = u.length := by
  cases hm : padded m with
  | true =>
    obtain ⟨c, hc⟩ : ∃ c : Block, o = c.val := by
      cases m <;> cases hm <;> cases d <;> obtain ⟨c, _, heq⟩ := Option.map_eq_some_iff.mp h <;>
        exact ⟨_, (congrArg Prod.fst heq).symm⟩
    rw [hc, c.property, hp hm]
  | false =>
    obtain ⟨k, hk⟩ : ∃ k : Block, o = xorBytes u (k.val.take u.length) := by
      cases m <;> cases hm <;> cases d <;> obtain ⟨k, _, heq⟩ := Option.map_eq_some_iff.mp h <;>
        exact ⟨k, (congrArg Prod.fst heq).symm⟩
    rw [hk, xorBytes_take, xorBytes_length, k.property, Nat.min_eq_left hl]

/-- The number of blocks and of bytes of a mode's loop that ran through. -/
theorem inputLoop_lengths {P : Platform} {m : Mode} {d : Dir} {key ibuf : Bytes} {fb : Block}
    (ha : padded m = true → d = .dec → ibuf.length % 16 = 0)
    (h : (blockLoop (ruleOf P m d key) fb (inputUnits m d ibuf)).failed = false) :
    (blockLoop (ruleOf P m d key) fb (inputUnits m d ibuf)).blocks = blockCount m d ibuf.length ∧
    (blockLoop (ruleOf P m d key) fb (inputUnits m d ibuf)).out.length = (inputBytes m d ibuf).length := by
  rw [← inputUnits_length, ← inputUnits_flatten ha]
  refine blockLoop_lengths (fun u hu fb o fb' => ?_) h
  obtain ⟨hl, hp⟩ := length_of_mem_inputUnits ha hu
  exact ruleOf_out_length hl hp

/-! ## Output lengths (R142, R150) -/

/-- A cipher command that ended normally: its checks passed, from some FB its loop ran through, and FINAL passed. -/
theorem loop_of_cipherOn_ok {P : Platform} {m : Mode} {d : Dir} {a : Bool} {s : State}
    (h : (cipherOn P m d a (blockStepOf m d) s).err = false) :
    (padded m = true → d = .dec → s.ibuf.length % 16 = 0) ∧
    ∃ fb, (blockLoop (ruleOf P m d s.keyInForce) fb (inputUnits m d s.ibuf)).failed = false ∧
      finished m d (blockLoop (ruleOf P m d s.keyInForce) fb (inputUnits m d s.ibuf)).out =
        some (cipherOn P m d a (blockStepOf m d) s).obuf ∧
      (cipherOn P m d a (blockStepOf m d) s).blkidx =
        (blockLoop (ruleOf P m d s.keyInForce) fb (inputUnits m d s.ibuf)).blocks := by
  obtain ⟨_, heq⟩ | ⟨_, _, _, _, heq⟩ | ⟨_, _, _, _, heq⟩ | ⟨_, _, _, _, _, _, heq⟩ | ⟨v, e, _, _, _, _, _, ha, heq⟩ |
    ⟨_, _, ha, heq⟩ := cipherOn_cases P m d a s <;> rw [heq] at h ⊢
  · cases h
  · cases h
  · cases h
  · cases h
  · exact ⟨ha, _, loopEnd_of_endOf h⟩
  · exact ⟨ha, _, loopEnd_of_endOf h⟩

/-- Settles O47: the loop keeps the length of its input, and UNPAD takes 1 to 16 bytes off. -/
theorem outputLengths : Obligations.OutputLengths := by
  intro P m d a s h t
  simp only [t, perform_ofCipher] at h ⊢
  obtain ⟨ha, fb, hr, hf, hb⟩ := loop_of_cipherOn_ok h
  obtain ⟨hblocks, hout⟩ := inputLoop_lengths ha hr
  rw [hb, hblocks]
  generalize (cipherOn P m d a (blockStepOf m d) s).obuf = obuf at hf ⊢
  generalize (blockLoop (ruleOf P m d s.keyInForce) fb (inputUnits m d s.ibuf)).out = out at hf hout
  refine ⟨?_, ?_, ?_⟩
  · rintro hp rfl
    obtain rfl : out = obuf := by simpa [finished] using hf
    simp [hout, inputBytes, blockCount, hp]
  · rintro hp rfl
    have hu : unpad out = some obuf := by simpa [finished, hp] using hf
    have hl : out.length = s.ibuf.length := by simpa [inputBytes] using hout
    obtain ⟨p, h1, h16, rfl⟩ := eq_append_replicate_of_unpad (by rw [hl]; exact ha hp rfl) hu
    rw [List.length_append, List.length_replicate] at hl
    exact ⟨by omega, by omega, by simp [blockCount, hp]⟩
  · intro hp
    obtain rfl : out = obuf := by simpa [finished, hp] using hf
    simp [hout, inputBytes, blockCount, hp]

end Sys2Proof.Machine
end

section
/-! Decryption undoes encryption, and the reverse: a block loop that undoes another one, and the round trip of a command
(O48). -/

namespace Sys2Proof.Machine

/-! ## A loop that undoes another -/

/-- The first unit of a sequence is its first 16 bytes, or all it has. -/
theorem unitsOf_append {o x : Bytes} (h : o.length ≤ 16) (hx : o.length < 16 → x = []) (n : Nat) :
    unitsOf (n + 1) (o ++ x) = o :: unitsOf n x := by
  rcases Nat.lt_or_eq_of_le h with hlt | heq
  · obtain rfl := hx hlt
    simp [unitsOf, List.take_of_length_le h, List.drop_of_length_le h]
  · simp [unitsOf, ← heq]

/-- When `rule'` undoes `rule` on every unit, from the same FB and into the same next FB, its loop over the output gives the
input back. -/
theorem blockLoop_undo {rule rule' : Block → Bytes → Option (Bytes × Block)} {n : Nat} {b : Bytes} {fb : Block}
    (hu : ∀ u ∈ unitsOf n b, ∀ fb o fb', rule fb u = some (o, fb') → rule' fb o = some (u, fb') ∧ o.length = u.length)
    (h : (blockLoop rule fb (unitsOf n b)).failed = false) :
    blockLoop rule' fb (unitsOf n (blockLoop rule fb (unitsOf n b)).out) =
      { blockLoop rule fb (unitsOf n b) with out := (unitsOf n b).flatten } := by
  induction n generalizing b fb with
  | zero => rfl
  | succ n ih =>
    rw [show unitsOf (n + 1) b = b.take 16 :: unitsOf n (b.drop 16) from rfl] at h hu ⊢
    obtain ⟨o, fb', ho, hok, heq⟩ := blockLoop_cons_of_ok h
    have hrest : ∀ u ∈ unitsOf n (b.drop 16), ∀ fb o fb', rule fb u = some (o, fb') →
        rule' fb o = some (u, fb') ∧ o.length = u.length := fun u h => hu u (List.mem_cons_of_mem _ h)
    obtain ⟨hundo, hlen⟩ := hu _ List.mem_cons_self fb o fb' ho
    rw [List.length_take] at hlen
    have hempty : o.length < 16 → (blockLoop rule fb' (unitsOf n (b.drop 16))).out = [] := by
      intro hlt
      have hd : b.drop 16 = [] := List.drop_of_length_le (by omega)
      rw [← List.length_eq_zero_iff, (blockLoop_lengths (fun u hu fb o fb' hr => (hrest u hu fb o fb' hr).2) hok).2, hd,
        unitsOf_flatten (by simp), List.length_nil]
    rw [heq, unitsOf_append (by omega) hempty, blockLoop_cons_of_some hundo, ih hrest hok]
    rfl

/-! ## A command that undoes another -/

/-- The bytes that went in are what FINAL makes of them coming back. -/
theorem finished_inputBytes {m : Mode} {d d' : Dir} (hd : padded m = true → d' ≠ d) (ibuf : Bytes) :
    finished m d' (inputBytes m d ibuf) = some ibuf := by
  cases hp : padded m with
  | false => simp [finished, inputBytes, hp]
  | true =>
    cases d <;> cases d'
    · exact absurd rfl (hd hp)
    · simp [finished, inputBytes, hp, unpad_pad]
    · simp [finished, inputBytes]
    · exact absurd rfl (hd hp)

/-- The units of what FINAL left are those of the loop's output, PAD undoing UNPAD. -/
theorem inputUnits_of_finished {m : Mode} {d d' : Dir} {ibuf x out : Bytes} (hd : padded m = true → d' ≠ d)
    (ha : padded m = true → d = .dec → ibuf.length % 16 = 0) (hx : x.length = (inputBytes m d ibuf).length)
    (h : finished m d x = some out) :
    (padded m = true → d' = .dec → out.length % 16 = 0) ∧
      inputUnits m d' out = unitsOf (blockCount m d ibuf.length) x := by
  cases hp : padded m with
  | false =>
    obtain rfl : x = out := by simpa [finished, hp] using h
    have hl : x.length = ibuf.length := by simpa [inputBytes, hp] using hx
    exact ⟨nofun, by simp [inputUnits, hp, blockCount, hl]⟩
  | true =>
    cases d <;> cases d'
    · exact absurd rfl (hd hp)
    · obtain rfl : x = out := by simpa [finished, hp] using h
      have hl : x.length = 16 * (ibuf.length / 16 + 1) := by simpa [inputBytes, hp] using hx
      exact ⟨fun _ _ => by omega, by simp [inputUnits, hp, blockCount, hl]⟩
    · have hl : x.length = ibuf.length := by simpa [inputBytes, hp] using hx
      have hm : x.length % 16 = 0 := by rw [hl]; exact ha hp rfl
      have hpad : pad out = x := pad_of_unpad hm (by simpa [finished, hp] using h)
      have hc : out.length / 16 + 1 = ibuf.length / 16 := by
        rw [← hl, ← hpad, pad_length, Nat.mul_div_cancel_left _ (by decide)]
      exact ⟨nofun, by simp [inputUnits, hp, blockCount, hpad, hc]⟩
    · exact absurd rfl (hd hp)

/-- Where the mode needs no IV its loop leaves FB alone, so a second command starts from the same block (R23, R129). -/
theorem loopStart_after_loop (P : Platform) (m : Mode) (d : Dir) (key : Bytes) (iv fb : Block) (us : List Bytes) :
    (if needsIV m then iv else (blockLoop (ruleOf P m d key) (if needsIV m then iv else fb) us).fb) =
      if needsIV m then iv else fb := by
  cases m with
  | ecb => exact blockLoop_ecb_fb P d key fb us
  | _ => rfl

/-- A cipher command on the output of another one, in the mode's other direction if it is padded, gives the first one's input
back when its rule undoes the first one's. -/
theorem cipherOn_undo {P : Platform} {m : Mode} {d d' : Dir} (a b : Bool) {s : State} (hd : padded m = true → d' ≠ d)
    (hk : s.klen ≠ .none) (hv : needsIV m = true → s.ivv = true)
    (hu : ∀ {u fb o fb'}, (padded m = true → u.length = 16) → u.length ≤ 16 →
      ruleOf P m d s.keyInForce fb u = some (o, fb') → ruleOf P m d' s.keyInForce fb o = some (u, fb'))
    (hc : (cipherOn P m d a (blockStepOf m d) s).err = false) :
    let c := cipherOn P m d a (blockStepOf m d) s
    let t := cipherOn P m d' b (blockStepOf m d') { c with ibuf := c.obuf }
    t.err = false ∧ t.obuf = s.ibuf := by
  obtain ⟨ha, -⟩ := loop_of_cipherOn_ok hc
  rw [cipherOn_eq hk hv ha] at hc ⊢
  obtain ⟨hr, out, hf⟩ := finished_of_endOf hc
  obtain ⟨-, hlen⟩ := inputLoop_lengths ha hr
  obtain ⟨ha', hunits⟩ := inputUnits_of_finished hd ha hlen hf
  have hback : blockLoop (ruleOf P m d' s.keyInForce) (if needsIV m then s.iv else s.fb) (inputUnits m d' out) =
      { blockLoop (ruleOf P m d s.keyInForce) (if needsIV m then s.iv else s.fb) (inputUnits m d s.ibuf) with
        out := inputBytes m d s.ibuf } := by
    rw [hunits, ← inputUnits_flatten ha]
    refine blockLoop_undo (fun u hmem fb o fb' ho => ?_) hr
    obtain ⟨hl, hp⟩ := length_of_mem_inputUnits ha hmem
    exact ⟨hu hp hl ho, ruleOf_out_length hl hp ho⟩
  rw [endOf_of_finished hr hf]
  intro c t
  have ht : t = endOf m d' (encode (Instr.ofCipher m d' b)) { blockLoop (ruleOf P m d s.keyInForce)
      (if needsIV m then s.iv else s.fb) (inputUnits m d s.ibuf) with out := inputBytes m d s.ibuf }
      { c with ibuf := out } := by
    rw [← hback, ← loopStart_after_loop P m d s.keyInForce s.iv s.fb (inputUnits m d s.ibuf)]
    exact cipherOn_eq (s := { c with ibuf := out }) hk hv ha'
  rw [ht]
  exact endOf_ok_of_finished hr (finished_inputBytes hd s.ibuf)

/-! ## ECB and CBC (R143) -/

theorem ecbRule_undo {f g : Bytes → Block → Option Block} {key u o : Bytes} {fb fb' : Block}
    (hfg : ∀ {x y}, f key x = some y → g key y = some x) (hl : u.length = 16) (h : ecbRule f key fb u = some (o, fb')) :
    ecbRule g key fb o = some (u, fb') := by
  obtain ⟨c, hc, heq⟩ := Option.map_eq_some_iff.mp h
  cases heq
  simp [ecbRule, hfg hc, toReg_val hl]

theorem cbcEncRule_undo {f g : Bytes → Block → Option Block} {key u o : Bytes} {fb fb' : Block}
    (hfg : ∀ {x y}, f key x = some y → g key y = some x) (hl : u.length = 16) (h : cbcEncRule f key fb u = some (o, fb')) :
    cbcDecRule g key fb o = some (u, fb') := by
  obtain ⟨c, hc, heq⟩ := Option.map_eq_some_iff.mp h
  cases heq
  simp [cbcDecRule, hfg hc, xorBlock_cancel, toReg_val hl]

theorem cbcDecRule_undo {f g : Bytes → Block → Option Block} {key u o : Bytes} {fb fb' : Block}
    (hfg : ∀ {x y}, f key x = some y → g key y = some x) (hl : u.length = 16) (h : cbcDecRule f key fb u = some (o, fb')) :
    cbcEncRule g key fb o = some (u, fb') := by
  obtain ⟨t, ht, heq⟩ := Option.map_eq_some_iff.mp h
  cases heq
  simp [cbcEncRule, hfg ht, xorBlock_cancel, toReg_val hl]

/-- With BLK_INV, the rule of a padded mode's other direction undoes the rule. -/
theorem ruleOf_undo_of_padded {P : Platform} (hP : P.BlkInv) {m : Mode} (hm : padded m = true) {d d' : Dir} (hd : d' ≠ d)
    {key u o : Bytes} {fb fb' : Block} (hk : key.length ∈ [16, 24, 32]) (hl : u.length = 16)
    (h : ruleOf P m d key fb u = some (o, fb')) : ruleOf P m d' key fb o = some (u, fb') := by
  have henc : ∀ {x y}, P.enc key x = some y → P.dec key y = some x := fun {x y} => (hP key x y hk).1
  have hdec : ∀ {x y}, P.dec key x = some y → P.enc key y = some x := fun {x y} => (hP key x y hk).2
  cases d <;> cases d'
  · exact absurd rfl hd
  · cases m <;> cases hm
    · exact ecbRule_undo henc hl h
    · exact cbcEncRule_undo henc hl h
  · cases m <;> cases hm
    · exact ecbRule_undo hdec hl h
    · exact cbcDecRule_undo hdec hl h
  · exact absurd rfl hd

/-- Under BLK_INV a command in ECB or CBC is undone by the command in the other direction. -/
theorem cipherOn_undo_of_padded {P : Platform} (hP : P.BlkInv) {m : Mode} (hm : padded m = true) {d d' : Dir} (hd : d' ≠ d)
    (a b : Bool) {s : State} (hk : s.klen ≠ .none) (hv : needsIV m = true → s.ivv = true)
    (hc : (cipherOn P m d a (blockStepOf m d) s).err = false) :
    let c := cipherOn P m d a (blockStepOf m d) s
    let t := cipherOn P m d' b (blockStepOf m d') { c with ibuf := c.obuf }
    t.err = false ∧ t.obuf = s.ibuf :=
  cipherOn_undo a b (fun _ => hd) hk hv
    (fun hp _ h => ruleOf_undo_of_padded hP hm hd (keyInForce_length hk) (hp hm) h) hc

/-- Under BLK_NOFAIL an encryption with its IV, if it needs one, ends normally. -/
theorem cipherOn_enc_ok {P : Platform} (hP : P.BlkNoFail) {m : Mode} (a : Bool) {s : State} (hk : s.klen ≠ .none)
    (hv : needsIV m = true → s.ivv = true) : (cipherOn P m .enc a (blockStepOf m .enc) s).err = false := by
  have hr := blockLoop_ok (ruleOf_isSome hP m .enc (keyInForce_length hk)) (if needsIV m then s.iv else s.fb)
    (inputUnits m .enc s.ibuf)
  rw [cipherOn_eq (d := .enc) hk hv (fun _ => nofun)]
  exact (endOf_ok_of_finished hr (if_neg (by simp))).1

/-- Settles O48: the encryption ends normally by BLK_NOFAIL, the decryption by hypothesis, and each is undone by the other. -/
theorem paddedRoundTrip : Obligations.PaddedRoundTrip := by
  refine ⟨fun P m a b s hI hN hm hk hs => ?_, unpad_pad⟩
  have hv : needsIV m = true → s.ivv = true := by
    intro hn
    obtain rfl | hv := hs
    · cases hn
    · exact hv
  simp only [perform_ofCipher]
  have hc := cipherOn_enc_ok hN a hk hv
  exact ⟨⟨hc, cipherOn_undo_of_padded hI hm (d := .enc) (d' := .dec) nofun a b hk hv hc⟩,
    cipherOn_undo_of_padded hI hm (d := .dec) (d' := .enc) nofun a b hk hv⟩

end Sys2Proof.Machine
end

section
/-! Error propagation in CBC decryption (R141): a changed ciphertext block shows in its own and the next plaintext block
(O51). -/

namespace Sys2Proof.Machine

theorem xorBytes_assoc : ∀ a b c : Bytes, xorBytes (xorBytes a b) c = xorBytes a (xorBytes b c)
  | [], _, _ => by simp [xorBytes]
  | _ :: _, [], _ => by simp [xorBytes]
  | _ :: _, _ :: _, [] => by simp [xorBytes]
  | x :: a, y :: b, z :: c => by
    have ih := xorBytes_assoc a b c
    simp only [xorBytes] at ih
    simp [xorBytes, ih, BitVec.xor_assoc]

/-! ## Blocks of a sequence (R54) -/

theorem blockAt_getElem? (b : Bytes) (j k : Nat) : (blockAt b j)[k]? = if k < 16 then b[16 * j + k]? else none := by
  simp [blockAt, memRead, List.getElem?_take]

theorem blockAt_append_zero {o : Bytes} (h : o.length = 16) (x : Bytes) : blockAt (o ++ x) 0 = o := by
  simp [blockAt, memRead, ← h]

theorem blockAt_append_succ {o : Bytes} (h : o.length = 16) (x : Bytes) (j : Nat) :
    blockAt (o ++ x) (j + 1) = blockAt x j := by
  have hj : 16 * (j + 1) = o.length + 16 * j := by omega
  simp only [blockAt, memRead, hj, List.drop_length_add_append]

/-- A whole block inside the sequence. -/
theorem blockAt_length {b : Bytes} {j : Nat} (h : j < b.length / 16) : (blockAt b j).length = 16 := by
  simp [blockAt]
  omega

theorem tamperBlock_length {b : Bytes} {i : Nat} (e : Block) (h : i < b.length / 16) :
    (tamperBlock b i e).length = b.length := by
  simp [tamperBlock, e.property, blockAt_length h]
  omega

/-- The changed block. -/
theorem blockAt_tamperBlock_same {b : Bytes} {i : Nat} (e : Block) (h : i < b.length / 16) :
    blockAt (tamperBlock b i e) i = xorBytes (blockAt b i) e.val := by
  have hx : (xorBytes (blockAt b i) e.val).length = 16 := by simp [e.property, blockAt_length h]
  have ht : (b.take (16 * i)).length = 16 * i := by simp; omega
  simp only [blockAt, memRead, tamperBlock, List.append_assoc] at hx ⊢
  rw [List.drop_left' ht, List.take_left' hx]

/-- Every other block. -/
theorem blockAt_tamperBlock_ne {b : Bytes} {i j : Nat} (e : Block) (h : i < b.length / 16) (hj : j ≠ i) :
    blockAt (tamperBlock b i e) j = blockAt b j := by
  have hx : (xorBytes (blockAt b i) e.val).length = 16 := by simp [e.property, blockAt_length h]
  have ht : (b.take (16 * i)).length = 16 * i := by simp; omega
  apply List.ext_getElem?
  intro k
  rw [blockAt_getElem?, blockAt_getElem?]
  split
  next hk =>
    rcases Nat.lt_or_gt_of_ne hj with hlt | hgt
    · rw [tamperBlock, List.append_assoc, List.getElem?_append_left (by omega), List.getElem?_take_of_lt (by omega)]
    · rw [tamperBlock, List.getElem?_append_right (by rw [List.length_append]; omega), List.length_append, ht, hx,
        List.getElem?_drop]
      congr 1
      omega
  · rfl

/-! ## The CBC decryption loop (R140) -/

/-- Plaintext block `j` is `D(C_j) XOR C_{j-1}`, where `C_{-1}` is the FB the loop starts from. -/
theorem blockLoop_cbcDecRule_blockAt {f : Bytes → Block → Option Block} {key : Bytes} :
    ∀ {us : List Bytes} {fb : Block} {j : Nat} {u v : Bytes}, (blockLoop (cbcDecRule f key) fb us).failed = false →
      us[j]? = some u → (fb.val :: us)[j]? = some v →
      ∃ t, f key (toReg 16 u) = some t ∧
        blockAt (blockLoop (cbcDecRule f key) fb us).out j = xorBytes t.val (toReg 16 v).val := by
  intro us
  induction us with
  | nil => intro _ _ _ _ _ hu; cases hu
  | cons w us ih =>
    intro fb j u v h hu hv
    obtain ⟨o, fb', ho, hok, heq⟩ := blockLoop_cons_of_ok h
    obtain ⟨t, ht, hout⟩ := Option.map_eq_some_iff.mp ho
    cases hout
    rw [heq]
    cases j with
    | zero =>
      cases hu
      cases hv
      exact ⟨t, ht, (blockAt_append_zero (xorBlock t fb).property _).trans (by simp [xorBlock_val])⟩
    | succ j =>
      simp only [blockAt_append_succ (xorBlock t fb).property]
      cases j with
      | zero =>
        cases hv
        simpa using ih hok hu (rfl : ((toReg 16 w).val :: us)[0]? = some _)
      | succ j => exact ih hok hu hv

/-- Ciphertext block `C_{j-1}` of `b`, where `C_{-1}` is `fb` (R140). -/
def prevBlock (fb : Block) (b : Bytes) : Nat → Bytes
  | 0 => fb.val
  | j + 1 => blockAt b j

theorem prevBlock_tamperBlock (fb : Block) {b : Bytes} {i : Nat} (e : Block) (h : i < b.length / 16) (j : Nat) :
    prevBlock fb (tamperBlock b i e) j = if j = i + 1 then xorBytes (prevBlock fb b j) e.val else prevBlock fb b j := by
  cases j with
  | zero => rfl
  | succ j =>
    by_cases hj : j = i
    · subst hj
      simp [prevBlock, blockAt_tamperBlock_same e h]
    · simp [prevBlock, hj, blockAt_tamperBlock_ne e h hj]

/-- Block `j` of a CBC decryption in FINAL, before unpadding. -/
theorem runBlocks_cbcDec_blockAt {P : Platform} (hP : P.BlkNoFail) {s : State} {j : Nat} (hk : s.klen ≠ .none)
    (hp : s.phase = .run) (hb : s.blkidx = 0) (ho : s.obuf = []) (hj : j < s.ibuf.length / 16) :
    ∃ t, P.dec s.keyInForce (toReg 16 (blockAt s.ibuf j)) = some t ∧
      blockAt (runBlocks P .cbc .dec stepCbcDec s).obuf j = xorBytes t.val (prevBlock s.fb s.ibuf j) := by
  have hok : (blockLoop (cbcDecRule P.dec s.keyInForce) s.fb (inputUnits .cbc .dec s.ibuf)).failed = false :=
    blockLoop_ok (ruleOf_isSome hP .cbc .dec (keyInForce_length hk)) _ _
  have hrun : (runBlocks P .cbc .dec stepCbcDec s).obuf =
      (blockLoop (cbcDecRule P.dec s.keyInForce) s.fb (inputUnits .cbc .dec s.ibuf)).out := by
    rw [runBlocks_eq (step := stepCbcDec) (rule := cbcDecRule P.dec s.keyInForce)
      (blockStepOf_follows P .cbc .dec s.keyInForce s.ibuf) (inputUnits_length .cbc .dec s.ibuf) hp hb ho,
      if_neg (by simp [hok])]
  have hunit : ∀ {k}, k < s.ibuf.length / 16 → (inputUnits .cbc .dec s.ibuf)[k]? = some (blockAt s.ibuf k) :=
    fun h => unitsOf_get s.ibuf h
  have hprev : (s.fb.val :: inputUnits .cbc .dec s.ibuf)[j]? = some (prevBlock s.fb s.ibuf j) ∧
      (prevBlock s.fb s.ibuf j).length = 16 := by
    cases j with
    | zero => exact ⟨rfl, s.fb.property⟩
    | succ j => exact ⟨hunit (by omega), blockAt_length (by omega)⟩
  obtain ⟨hget, hlen⟩ := hprev
  obtain ⟨t, ht, hout⟩ := blockLoop_cbcDecRule_blockAt hok (hunit hj) hget
  rw [toReg_val hlen] at hout
  exact ⟨t, ht, by rw [hrun, hout]⟩

/-- Settles O51: block `j` reads ciphertext blocks `j` and `j - 1` only, the second one through XOR. -/
theorem cbcTamperSpansTwoBlocks : Obligations.CbcTamperSpansTwoBlocks := by
  intro P s i j e hP hk hp hb ho _ hi hj hji
  have hj' : j < (tamperBlock s.ibuf i e).length / 16 := by rwa [tamperBlock_length e hi]
  obtain ⟨t, ht, hout⟩ := runBlocks_cbcDec_blockAt hP hk hp hb ho hj
  obtain ⟨t', ht', hout'⟩ :=
    runBlocks_cbcDec_blockAt hP (s := { s with ibuf := tamperBlock s.ibuf i e }) hk hp hb ho hj'
  simp only [blockAt_tamperBlock_ne e hi hji, prevBlock_tamperBlock s.fb e hi] at ht' hout'
  obtain rfl : t' = t := Option.some.inj (ht'.symm.trans ht)
  simp only [hout, hout']
  split
  · exact (xorBytes_assoc ..).symm
  · rfl

end Sys2Proof.Machine
end

section
/-! The stream modes: each command's next state (O37 to O40). -/

namespace Sys2Proof.Machine

/-- Settles O37: CFB starts from the loaded IV, and a stream mode takes every length. -/
theorem cfbEncResult : Obligations.CfbEncResult :=
  fun a _ hk hv => exec_ofCipher (m := .cfb) (d := .enc) (a := a) hk (fun _ => hv) nofun

/-- Settles O38. -/
theorem cfbDecResult : Obligations.CfbDecResult :=
  fun a _ hk hv => exec_ofCipher (m := .cfb) (d := .dec) (a := a) hk (fun _ => hv) nofun

/-- Settles O39: the rule of OFB is the same in both directions. -/
theorem ofbResult : Obligations.OfbResult := by
  rintro i a s (rfl | rfl) hk hv
  · exact exec_ofCipher (m := .ofb) (d := .enc) (a := a) hk (fun _ => hv) nofun
  · exact exec_ofCipher (m := .ofb) (d := .dec) (a := a) hk (fun _ => hv) nofun

/-- Settles O40: the rule of CTR is the same in both directions. -/
theorem ctrResult : Obligations.CtrResult := by
  rintro i a s (rfl | rfl) hk hv
  · exact exec_ofCipher (m := .ctr) (d := .enc) (a := a) hk (fun _ => hv) nofun
  · exact exec_ofCipher (m := .ctr) (d := .dec) (a := a) hk (fun _ => hv) nofun

end Sys2Proof.Machine
end

section
/-! The stream modes as one family: a unit is XORed with the block `E(FB)`, and the modes differ in the next FB only (R150 to
R156). A command with its IV loaded is the loop of that rule. -/

namespace Sys2Proof.Machine

/-- The rule of a stream mode whose next FB is `next fb k u`, where `k = E(fb)` and `u` is the input unit. -/
def streamRule (f : Bytes → Block → Option Block) (next : Block → Block → Bytes → Block) (key : Bytes) (fb : Block)
    (u : Bytes) : Option (Bytes × Block) :=
  (f key fb).map fun k => (xorBytes u (k.val.take u.length), next fb k u)

/-- The next FB of each stream mode and direction (R151, R152, R153, R155); the block modes have none. -/
def streamNext : Mode → Dir → Block → Block → Bytes → Block
  | .cfb, .enc, fb, k, u => if u.length = 16 then toReg 16 (xorBytes u k.val) else fb
  | .cfb, .dec, fb, _, u => if u.length = 16 then toReg 16 u else fb
  | .ofb, _, _, k, _ => k
  | .ctr, _, fb, _, _ => nextCounter fb
  | _, _, fb, _, _ => fb

/-- The rule of a stream mode is `streamRule`. -/
theorem ruleOf_of_stream (P : Platform) {m : Mode} (hm : padded m = false) (d : Dir) :
    ruleOf P m d = streamRule P.enc (streamNext m d) := by
  cases m <;> cases hm <;> cases d <;> rfl

theorem streamRule_eq_some {f : Bytes → Block → Option Block} {next : Block → Block → Bytes → Block} {key u o : Bytes}
    {fb fb' : Block} :
    streamRule f next key fb u = some (o, fb') ↔ ∃ k, f key fb = some k ∧ xorBytes u k.val = o ∧ next fb k u = fb' := by
  simp [streamRule, xorBytes_take]

/-! ## A whole command with its IV loaded (R150, R186) -/

theorem needsIV_of_stream {m : Mode} (hm : padded m = false) : needsIV m = true := by
  cases m <;> cases hm <;> rfl

theorem stream_of_ofb_or_ctr {m : Mode} (hm : m = .ofb ∨ m = .ctr) : padded m = false := by
  obtain rfl | rfl := hm <;> rfl

/-- The block loop of a stream command on IBUF, from IV on. -/
def streamLoop (P : Platform) (m : Mode) (d : Dir) (s : State) : LoopEnd :=
  blockLoop (streamRule P.enc (streamNext m d) s.keyInForce) s.iv (unitsOf ((s.ibuf.length + 15) / 16) s.ibuf)

theorem cipherOn_stream {P : Platform} {m : Mode} (hm : padded m = false) (d : Dir) (a : Bool) {s : State}
    (hk : s.klen ≠ .none) (hv : s.ivv = true) :
    cipherOn P m d a (blockStepOf m d) s = cipherEnd (encode (Instr.ofCipher m d a)) (streamLoop P m d s) s := by
  rw [cipherOn_eq hk (fun _ => hv) (by simp [hm]), ruleOf_of_stream P hm, if_pos (needsIV_of_stream hm)]
  simp [endOf, streamLoop, inputUnits, blockCount, hm]

theorem cipherEnd_err (w : Word) (r : LoopEnd) (s : State) : (cipherEnd w r s).err = r.failed := by
  unfold cipherEnd
  cases r.failed <;> rfl

theorem cipherEnd_of_ok {w : Word} {r : LoopEnd} {s : State} (h : r.failed = false) :
    cipherEnd w r s = endedOk w { s with fb := r.fb, blkidx := r.blocks, obuf := r.out } := by
  simp [cipherEnd, h]

/-- A cipher command that ended normally had a key. -/
theorem klen_of_cipherOn_ok {P : Platform} {m : Mode} {d : Dir} {a : Bool} {step : BlockStep} {s : State}
    (h : (cipherOn P m d a step s).err = false) : s.klen ≠ .none := by
  intro hk
  rw [cipherOn_keylen hk] at h
  cases h

/-- A stream command that ended normally has run through its units. -/
theorem cipherOn_stream_of_ok {P : Platform} {m : Mode} (hm : padded m = false) {d : Dir} {a : Bool} {s : State}
    (hv : s.ivv = true) (h : (cipherOn P m d a (blockStepOf m d) s).err = false) :
    (streamLoop P m d s).failed = false ∧
      cipherOn P m d a (blockStepOf m d) s = endedOk (encode (Instr.ofCipher m d a))
        { s with fb := (streamLoop P m d s).fb, blkidx := (streamLoop P m d s).blocks, obuf := (streamLoop P m d s).out } := by
  have heq := cipherOn_stream (P := P) hm d a (klen_of_cipherOn_ok h) hv
  rw [heq, cipherEnd_err] at h
  exact ⟨h, heq.trans (cipherEnd_of_ok h)⟩

/-! ## The counter of CTR (R155, R157) -/

/-- A CTR loop that ran through has counted its units. -/
theorem blockLoop_ctr_of_ok {f : Bytes → Block → Option Block} {d : Dir} {key : Bytes} {us : List Bytes} {fb : Block}
    (h : (blockLoop (streamRule f (streamNext .ctr d) key) fb us).failed = false) :
    (blockLoop (streamRule f (streamNext .ctr d) key) fb us).blocks = us.length ∧
    (blockLoop (streamRule f (streamNext .ctr d) key) fb us).fb = toBE128 ((be128 fb + us.length) % 2 ^ 128) := by
  induction us generalizing fb with
  | nil =>
    refine ⟨rfl, ?_⟩
    rw [List.length_nil, Nat.add_zero, Nat.mod_eq_of_lt (be128_lt fb), toBE128_be128, blockLoop]
  | cons u us ih =>
    obtain ⟨o, fb', ho, hok, heq⟩ := blockLoop_cons_of_ok h
    obtain ⟨ihblocks, ihfb⟩ := ih hok
    obtain ⟨_, _, _, rfl⟩ := streamRule_eq_some.mp ho
    have hcount : be128 (nextCounter fb) = (be128 fb + 1) % 2 ^ 128 := by
      rw [nextCounter, be128_toBE128, Nat.mod_mod]
    rw [heq]
    refine ⟨congrArg (· + 1) ihblocks, ihfb.trans ?_⟩
    rw [streamNext, hcount, Nat.mod_add_mod, List.length_cons, Nat.add_assoc, Nat.add_comm 1]

/-- Settles O41. -/
theorem ctrCounterAfterTheCommand : Obligations.CtrCounterAfterTheCommand := by
  intro P i a s hi hv h
  obtain ⟨d, rfl⟩ : ∃ d, i = Instr.ofCipher .ctr d a := by
    obtain rfl | rfl := hi
    · exact ⟨.enc, rfl⟩
    · exact ⟨.dec, rfl⟩
  rw [perform_ofCipher] at h ⊢
  obtain ⟨hok, heq⟩ := cipherOn_stream_of_ok rfl hv h
  obtain ⟨hblocks, hfb⟩ := blockLoop_ctr_of_ok hok
  rw [unitsOf_length] at hblocks hfb
  rw [heq]
  exact ⟨hblocks, hfb⟩

/-! ## The two directions of OFB and CTR (R154, R156) -/

theorem streamLoop_dir {m : Mode} (hm : m = .ofb ∨ m = .ctr) (P : Platform) (d d' : Dir) (s : State) :
    streamLoop P m d s = streamLoop P m d' s := by
  obtain rfl | rfl := hm <;> cases d <;> cases d' <;> rfl

/-- In both directions the same end, up to the command word: with the same error, or normally. -/
def SameEnd (P : Platform) (m : Mode) (a : Bool) (s : State) : Prop :=
  (∃ e t, ∀ d, cipherOn P m d a (blockStepOf m d) s = endedErr (encode (Instr.ofCipher m d a)) e t) ∨
  (∃ t, ∀ d, cipherOn P m d a (blockStepOf m d) s = endedOk (encode (Instr.ofCipher m d a)) t)

theorem sameEnd_of_iv {m : Mode} (hm : m = .ofb ∨ m = .ctr) (P : Platform) (a : Bool) {s : State} (hk : s.klen ≠ .none)
    (hv : s.ivv = true) : SameEnd P m a s := by
  have heq : ∀ d, cipherOn P m d a (blockStepOf m d) s =
      cipherEnd (encode (Instr.ofCipher m d a)) (streamLoop P m .enc s) s := fun d => by
    rw [cipherOn_stream (stream_of_ofb_or_ctr hm) d a hk hv, streamLoop_dir hm P d .enc s]
  cases hf : (streamLoop P m .enc s).failed with
  | true => exact .inl ⟨.blk, _, fun d => (heq d).trans (if_pos hf)⟩
  | false => exact .inr ⟨_, fun d => (heq d).trans (cipherEnd_of_ok hf)⟩

/-- The checks and the generation of an IV do not look at the direction of a stream command either (R177, R178). -/
theorem sameEnd_of_ofb_or_ctr {m : Mode} (hm : m = .ofb ∨ m = .ctr) (P : Platform) (a : Bool) (s : State) :
    SameEnd P m a s := by
  have hs := stream_of_ofb_or_ctr hm
  have hn := needsIV_of_stream hs
  by_cases hk : s.klen = .none
  · exact .inl ⟨.keylen, _, fun d => cipherOn_keylen hk⟩
  cases hv : s.ivv with
  | true => exact sameEnd_of_iv hm P a hk hv
  | false =>
    cases a with
    | false => exact .inl ⟨.ivmiss, _, fun d => cipherOn_ivmiss hk hn hv⟩
    | true =>
      cases he : entBytes P 16 s.ent with
      | failed e => exact .inl ⟨.hash, _, fun d => cipherOn_autoiv_failed hk hn hv (by simp [hs]) he _⟩
      | got v e =>
        have hgen : SameEnd P m true { s with ent := e, iv := toReg 16 v, ivv := true } := sameEnd_of_iv hm P true hk rfl
        have heq : ∀ d, cipherOn P m d true (blockStepOf m d) s =
            cipherOn P m d true (blockStepOf m d) { s with ent := e, iv := toReg 16 v, ivv := true } :=
          fun d => cipherOn_autoiv hk hn hv (by simp [hs]) he _
        simpa only [SameEnd, heq] using hgen

/-- The error word of a command as a number: its opcode in OPC (R33). -/
theorem errWord_encode_toNat (e : ErrCode) (i : Instr) :
    (errWord e (encode i)).toNat = 256 * i.opcode.toNat + e.code.toNat := by
  rw [errWord_toNat, ← opField_toNat, opField_encode, Nat.mul_comm]

/-- From the same end the two directions differ in CUR and, on an error, in ERRCODE.OPC. -/
theorem SameEnd.dec_eq_enc {P : Platform} {m : Mode} {a : Bool} {s : State} (h : SameEnd P m a s) :
    ∃ e, cipherOn P m .dec a (blockStepOf m .dec) s =
        { cipherOn P m .enc a (blockStepOf m .enc) s with cur := encode (Instr.ofCipher m .dec a), errcode := e } ∧
      e.toNat = if (cipherOn P m .enc a (blockStepOf m .enc) s).err then
        256 * (Instr.ofCipher m .dec a).opcode.toNat + (cipherOn P m .enc a (blockStepOf m .enc) s).errcode.toNat % 256
      else 0 := by
  obtain ⟨e, t, heq⟩ | ⟨t, heq⟩ := h <;> rw [heq, heq]
  · refine ⟨errWord e (encode (Instr.ofCipher m .dec a)), rfl, ?_⟩
    have hcode := e.code.isLt
    rw [endedErr_err, if_pos rfl, endedErr_errcode, errWord_encode_toNat, errWord_encode_toNat]
    omega
  · exact ⟨0, rfl, rfl⟩

/-- Settles O42. -/
theorem streamDirectionsAgree : Obligations.StreamDirectionsAgree :=
  fun P a s => ⟨(sameEnd_of_ofb_or_ctr (.inl rfl) P a s).dec_eq_enc, (sameEnd_of_ofb_or_ctr (.inr rfl) P a s).dec_eq_enc⟩

/-! ## The keystream of OFB and CTR (R161, R162) -/

/-- XOR with a sequence in two parts. -/
theorem xorBytes_append_right (b k k' : Bytes) :
    xorBytes b (k ++ k') = xorBytes (b.take k.length) k ++ xorBytes (b.drop k.length) k' := by
  induction k generalizing b with
  | nil => simp [xorBytes]
  | cons x k ih =>
    cases b with
    | nil => simp [xorBytes]
    | cons y b =>
      have := ih b
      simp only [xorBytes] at this
      simp [xorBytes, this]

/-- When the next FB does not depend on the data, a loop that ran through has used a keystream that serves all other data of
that length as well. -/
theorem exists_keystream {f : Bytes → Block → Option Block} {next : Block → Block → Bytes → Block} {key : Bytes}
    (hnext : ∀ fb k u v, next fb k u = next fb k v) {n : Nat} {b : Bytes} {fb : Block}
    (h : (blockLoop (streamRule f next key) fb (unitsOf n b)).failed = false) :
    ∃ k : Bytes, k.length = 16 * n ∧ ∀ c : Bytes, (blockLoop (streamRule f next key) fb (unitsOf n c)).failed = false ∧
      (blockLoop (streamRule f next key) fb (unitsOf n c)).out = xorBytes c k := by
  induction n generalizing b fb with
  | zero => exact ⟨[], rfl, fun c => ⟨rfl, by simp [unitsOf, blockLoop, xorBytes]⟩⟩
  | succ n ih =>
    obtain ⟨_, fb', ho, hok, _⟩ := blockLoop_cons_of_ok h
    obtain ⟨x, hx, _, rfl⟩ := streamRule_eq_some.mp ho
    obtain ⟨k, hk, hloop⟩ := ih hok
    refine ⟨x.val ++ k, by rw [List.length_append, x.property, hk]; omega, fun c => ?_⟩
    obtain ⟨hok', hout⟩ := hloop (c.drop 16)
    have hstep : streamRule f next key fb (c.take 16) = some (xorBytes (c.take 16) x.val, next fb x (b.take 16)) :=
      streamRule_eq_some.mpr ⟨x, hx, rfl, hnext ..⟩
    rw [unitsOf, blockLoop_cons_of_some hstep, xorBytes_append_right, x.property]
    exact ⟨hok', congrArg _ hout⟩

theorem streamNext_data {m : Mode} (hm : m = .ofb ∨ m = .ctr) (d : Dir) (fb k : Block) (u v : Bytes) :
    streamNext m d fb k u = streamNext m d fb k v := by
  obtain rfl | rfl := hm <;> rfl

/-- Settles O44: both commands use the keystream of the first. -/
theorem keystreamDoesNotDependOnTheData : Obligations.KeystreamDoesNotDependOnTheData := by
  intro P m d a s b hm hv hl h
  have hs := stream_of_ofb_or_ctr hm
  rw [perform_ofCipher] at h ⊢
  rw [perform_ofCipher]
  obtain ⟨hok, heq⟩ := cipherOn_stream_of_ok hs hv h
  obtain ⟨k, hk, hloop⟩ := exists_keystream (streamNext_data hm d) hok
  have hout : (streamLoop P m d s).out = xorBytes s.ibuf k := (hloop s.ibuf).2
  have hloop' : (streamLoop P m d { s with ibuf := b }).failed = false ∧
      (streamLoop P m d { s with ibuf := b }).out = xorBytes b k := by
    simp only [streamLoop, hl]
    exact hloop b
  obtain ⟨hok', hout'⟩ := hloop'
  have hlen : s.ibuf.length ≤ k.length := by omega
  have hkey := klen_of_cipherOn_ok h
  rw [heq, cipherOn_stream (s := { s with ibuf := b }) hs d a hkey hv, cipherEnd_of_ok hok']
  refine ⟨rfl, ?_⟩
  rw [endedOk_obuf, endedOk_obuf, hout, hout']
  exact xorBytes_mask hlen (hl ▸ hlen)

/-! ## Each direction undoes the other (R158, R159) -/

/-- The next FB is the same from the unit and, in the other direction, from what the unit became. -/
theorem streamNext_undo {m : Mode} (hm : padded m = false) {d d' : Dir} (hd : m = .cfb → d' ≠ d) (fb k : Block) {u : Bytes}
    (hl : u.length ≤ 16) : streamNext m d' fb k (xorBytes u k.val) = streamNext m d fb k u := by
  have hlen : u.length ≤ k.val.length := by rwa [k.property]
  cases m with
  | ecb => cases hm
  | cbc => cases hm
  | cfb =>
    cases d <;> cases d'
    · exact absurd rfl (hd rfl)
    · simp [streamNext, hlen]
    · simp [streamNext, hlen, xorBytes_cancel hlen]
    · exact absurd rfl (hd rfl)
  | ofb => rfl
  | ctr => rfl

theorem ruleOf_undo_of_stream {P : Platform} {m : Mode} (hm : padded m = false) {d d' : Dir} (hd : m = .cfb → d' ≠ d)
    {key u o : Bytes} {fb fb' : Block} (hl : u.length ≤ 16) (h : ruleOf P m d key fb u = some (o, fb')) :
    ruleOf P m d' key fb o = some (u, fb') := by
  rw [ruleOf_of_stream P hm, streamRule_eq_some] at h ⊢
  obtain ⟨k, hk, rfl, rfl⟩ := h
  exact ⟨k, hk, xorBytes_cancel (by rwa [k.property]), streamNext_undo hm hd fb k hl⟩

/-- A stream command with its IV loaded that ended normally is undone: in CFB by the other direction, in OFB and CTR by
either. -/
theorem cipherOn_undo_of_stream {P : Platform} {m : Mode} (hm : padded m = false) {d d' : Dir} (hd : m = .cfb → d' ≠ d)
    (a b : Bool) {s : State} (hv : s.ivv = true) (hc : (cipherOn P m d a (blockStepOf m d) s).err = false) :
    let c := cipherOn P m d a (blockStepOf m d) s
    let t := cipherOn P m d' b (blockStepOf m d') { c with ibuf := c.obuf }
    t.err = false ∧ t.obuf = s.ibuf :=
  cipherOn_undo a b (by simp [hm]) (klen_of_cipherOn_ok hc) (fun _ => hv) (fun _ => ruleOf_undo_of_stream hm hd) hc

/-- Settles O50. -/
theorem ofbAndCtrAreSelfInverse : Obligations.OfbAndCtrAreSelfInverse := by
  intro P m d d' a b s hm hv
  have hd : m = .cfb → d' ≠ d := by
    rintro rfl
    obtain h | h := hm <;> cases h
  simp only [perform_ofCipher]
  exact cipherOn_undo_of_stream (stream_of_ofb_or_ctr hm) hd a b hv

/-- Under BLK_NOFAIL a stream command with key and IV ends normally. -/
theorem cipherOn_stream_ok {P : Platform} (hP : P.BlkNoFail) {m : Mode} (hm : padded m = false) (d : Dir) (a : Bool)
    {s : State} (hk : s.klen ≠ .none) (hv : s.ivv = true) : (cipherOn P m d a (blockStepOf m d) s).err = false := by
  rw [cipherOn_stream hm d a hk hv, cipherEnd_err, streamLoop, ← ruleOf_of_stream P hm]
  exact blockLoop_ok (ruleOf_isSome hP m d (keyInForce_length hk)) ..

/-- Settles O49: both commands end normally by BLK_NOFAIL, and an empty input has no unit. -/
theorem streamRoundTrip : Obligations.StreamRoundTrip := by
  intro P m a b s hm hk hv
  simp only [perform_ofCipher]
  refine ⟨fun hP => ?_, fun hi => ?_⟩
  · have henc := cipherOn_stream_ok hP hm .enc a hk hv
    have hdec := cipherOn_stream_ok hP hm .dec a hk hv
    exact ⟨⟨henc, cipherOn_undo_of_stream hm (d := .enc) (d' := .dec) (fun _ => nofun) a b hv henc⟩,
      hdec, cipherOn_undo_of_stream hm (d := .dec) (d' := .enc) (fun _ => nofun) a b hv hdec⟩
  · have hloop : streamLoop P m .enc s = { out := [], blocks := 0, fb := s.iv, failed := false } := by
      simp [streamLoop, hi, unitsOf, blockLoop]
    rw [cipherOn_stream hm .enc a hk hv, hloop]
    exact ⟨rfl, rfl⟩

/-! ## The first block and the IV (R163) -/

theorem xorBytes_comm (a b : Bytes) : xorBytes a b = xorBytes b a :=
  List.zipWith_comm_of_comm BitVec.xor_comm

/-- XOR of whole blocks can be cancelled. -/
theorem block_eq_of_xorBytes_eq {u : Bytes} (hu : u.length = 16) {k k' : Block} (h : xorBytes u k.val = xorBytes u k'.val) :
    k = k' := by
  rw [xorBytes_comm u, xorBytes_comm u] at h
  apply Subtype.ext
  rw [← xorBytes_cancel (a := k.val) (b := u) (by rw [k.property, hu]), h, xorBytes_cancel (by rw [k'.property, hu])]

/-- The first output block of a stream command is the first input block XOR `E(IV)`. -/
theorem first_block_of_stream {P : Platform} {m : Mode} (hm : padded m = false) {d : Dir} {a : Bool} {s : State}
    (hv : s.ivv = true) (hl : 16 ≤ s.ibuf.length) (h : (cipherOn P m d a (blockStepOf m d) s).err = false) :
    ∃ k, P.enc s.keyInForce s.iv = some k ∧
      (cipherOn P m d a (blockStepOf m d) s).obuf.take 16 = xorBytes (s.ibuf.take 16) k.val := by
  obtain ⟨hok, heq⟩ := cipherOn_stream_of_ok hm hv h
  obtain ⟨n, hn⟩ : ∃ n, (s.ibuf.length + 15) / 16 = n + 1 := Nat.exists_eq_add_of_le' (by omega)
  rw [heq, endedOk_obuf]
  rw [streamLoop, hn] at hok ⊢
  obtain ⟨o, fb', ho, _, heq'⟩ := blockLoop_cons_of_ok hok
  obtain ⟨k, hk, rfl, _⟩ := streamRule_eq_some.mp ho
  refine ⟨k, hk, ?_⟩
  rw [unitsOf, heq']
  exact List.take_left' (by simp [k.property, hl])

/-- Settles O52: equal first blocks have equal keystream blocks, and under BLK_INV `D` gives both IVs from that block. -/
theorem differentIvsGiveDifferentFirstBlocks : Obligations.DifferentIvsGiveDifferentFirstBlocks := by
  intro P m a s v hP hm hk hv hl hne h h' heq
  rw [perform_ofCipher] at h h' heq
  rw [perform_ofCipher] at heq
  obtain ⟨k, henc, hout⟩ := first_block_of_stream hm hv hl h
  obtain ⟨k', henc', hout'⟩ := first_block_of_stream (s := { s with iv := v }) hm hv hl h'
  rw [hout, hout'] at heq
  obtain rfl : k = k' := block_eq_of_xorBytes_eq (by simp [hl]) heq
  have hdec := (hP s.keyInForce s.iv k (keyInForce_length hk)).1 henc
  have hdec' := (hP s.keyInForce v k (keyInForce_length hk)).1 henc'
  exact hne (Option.some.inj (hdec'.symm.trans hdec))

end Sys2Proof.Machine
end

section
/-! In a state with the invariants no step faults (O24): PHASE agrees with the command in flight, so the sequencer has a
transition (R175), and no host move faults. -/

namespace Sys2Proof.Machine

/-- Where PHASE agrees with the command in flight, the sequencer has a transition (R175). -/
theorem exists_sequencerTurn {P : Platform} {s : State} (h : phaseOk s) : ∃ t, sequencerTurn P s = .next t := by
  unfold phaseOk at h
  cases hp : s.phase <;> rw [hp] at h
  case idle => exact ⟨s, by rw [sequencerTurn, hp]⟩
  case check => exact ⟨checkStep s, by rw [sequencerTurn, hp]⟩
  case ivgen =>
    obtain ⟨_, _, m, d, hc, hn⟩ := h
    exact ⟨_, sequencerTurn_of_ivgen hp hc hn⟩
  case run =>
    obtain ⟨m, d, hc, _⟩ := h
    exact ⟨_, sequencerTurn_of_run hp hc⟩
  case final =>
    obtain ⟨m, d, hc, _⟩ := h
    exact ⟨_, sequencerTurn_of_final hp hc⟩
  case kinit => exact ⟨_, sequencerTurn_of_kinit hp h.2⟩
  case krun => exact ⟨_, sequencerTurn_of_krun hp h.2⟩
  case kout => exact ⟨_, sequencerTurn_of_kout hp h.2⟩
  case gen =>
    obtain ⟨n, hi, _⟩ := h
    exact ⟨_, sequencerTurn_of_gen hp hi⟩

theorem sequencerTurn_ne_fault {P : Platform} {s : State} {r : Fault} (h : phaseOk s) : sequencerTurn P s ≠ .fault r := by
  obtain ⟨t, ht⟩ := exists_sequencerTurn (P := P) h
  simp [ht]

/-- H.LOAD is made or refused (R56; log 10). -/
theorem loadMove_ne_fault {P : Platform} {b : Bytes} {s : State} {r : Fault} : loadMove P b s ≠ .fault r := by
  unfold loadMove
  split_ifs <;> simp

/-- H.CMD faults only if the command it runs does (R57). -/
theorem cmdMove_ne_fault {run : Instr → State → Host.Outcome State Fault Refusal} {r : Fault}
    (hrun : ∀ i s, run i s ≠ .fault r) (w : Word) (s : State) : cmdMove run w s ≠ .fault r := by
  obtain ⟨_, heq⟩ | ⟨i, _, _, heq⟩ | ⟨e, _, _, heq⟩ := cmdMove_cases run w s <;> rw [heq]
  · simp
  · exact hrun i s
  · simp

theorem exec_ne_fault {r : Fault} (i : Instr) (s : State) : exec i s ≠ .fault r := by
  simp [exec_eq_perform]

theorem makeMove_ne_fault {P : Platform} {m : Move} {s : State} {r : Fault} (h : phaseOk s) :
    makeMove P exec m s ≠ .fault r := by
  cases m with
  | load b => exact loadMove_ne_fault
  | cmd w => exact cmdMove_ne_fault exec_ne_fault w s
  | write n w =>
    rw [makeMove]
    split
    · exact cmdMove_ne_fault exec_ne_fault w s
    · simp
  | tick => exact sequencerTurn_ne_fault h
  | cmdPhased w | read n | readout | reset => simp [makeMove]

/-- Settles O24: the turn is the sequencer's, which has a transition, or a host move's. -/
theorem invariantStatesNeverFault : Obligations.InvariantStatesNeverFault := by
  intro s r h
  cases hm : s.moves with
  | nil =>
    rw [step, turn, hm]
    exact sequencerTurn_ne_fault h.phase
  | cons m rest =>
    rw [step_of_moves hm]
    exact makeMove_ne_fault (h.unseen s.ovr s.ent.envReads s.hostReads rest s.reply).phase

end Sys2Proof.Machine
end

section
/-! Issue (O9), the façade commands (O26 to O28) and the automatic IV (O31). -/

namespace Sys2Proof.Machine

/-! ## Issue (R176) -/

theorem cmdPhasedMove_of_idle (w : Word) {s : State} (hb : s.busy = false) : cmdPhasedMove w s = s.issue w := by
  simp [cmdPhasedMove, hb]

/-- Settles O9: not BUSY, the move is the issue of its word. -/
theorem issueWritesExactlyItsState : Obligations.IssueWritesExactlyItsState := by
  intro s w rest hm hb
  rw [step_of_moves hm, makeMove, cmdPhasedMove_of_idle w (s := { s with moves := rest }) hb]
  rfl

/-! ## The façade commands (R180 to R182) -/

theorem encode_clear : encode .clear = 0x00000001 := by decide
theorem encode_keyld : encode .keyld = 0x00000002 := by decide
theorem encode_ivld : encode .ivld = 0x00000003 := by decide

/-- Settles O26: CHECK of CLEAR, right after its issue. -/
theorem clearEndsTheLifecycle : Obligations.ClearEndsTheLifecycle := by
  intro s
  rw [exec_eq_perform, perform, encode_clear]
  rfl

/-- The lengths of IBUF that KEYLD accepts (R180). -/
theorem keyLenOf_eq_none {n : Nat} : keyLenOf n = none ↔ ¬ (n = 16 ∨ n = 24 ∨ n = 32) := by
  unfold keyLenOf
  split_ifs <;> simp_all

theorem toNat_of_keyLenOf {n : Nat} {l : KeyLen} (h : keyLenOf n = some l) : l.toNat = n := by
  unfold keyLenOf at h
  split_ifs at h with h1 h2 h3 <;> cases h
  · exact h1.symm
  · exact h2.symm
  · exact h3.symm

/-- A sequence that fits in a register stands in it followed by zeros (R180). -/
theorem toReg_val_of_le {n : Nat} {b : Bytes} (h : b.length ≤ n) : (toReg n b).val = b ++ List.replicate (n - b.length) 0 := by
  simp [toReg, List.take_append, List.take_of_length_le h]

/-- Settles O27, by what CHECK of KEYLD does right after the issue. -/
theorem keyldLoadsOrRemovesTheKey : Obligations.KeyldLoadsOrRemovesTheKey := by
  intro s
  rw [exec_eq_perform, perform, encode_keyld]
  obtain ⟨l, hl, heq⟩ | ⟨hl, heq⟩ := keyldCheck_cases (s.issue 0x00000002) <;> rw [heq]
  · have hlen : s.ibuf.length = 16 ∨ s.ibuf.length = 24 ∨ s.ibuf.length = 32 := by
      by_contra hn
      simp [keyLenOf_eq_none.mpr hn] at hl
    exact ⟨fun _ => ⟨toReg 32 s.ibuf, l, toNat_of_keyLenOf hl, toReg_val_of_le (by omega), rfl⟩, fun hn => absurd hlen hn⟩
  · exact ⟨fun hlen => absurd hlen (keyLenOf_eq_none.mp hl), fun _ => rfl⟩

/-- Settles O28, by what CHECK of IVLD does right after the issue. -/
theorem ivldLoadsOrRemovesTheIv : Obligations.IvldLoadsOrRemovesTheIv := by
  intro s
  rw [exec_eq_perform, perform, encode_ivld]
  obtain ⟨hlen, heq⟩ | ⟨hlen, heq⟩ := ivldCheck_cases (s.issue 0x00000003) <;> rw [heq]
  · exact ⟨fun _ => ⟨toReg 16 s.ibuf, toReg_val hlen, rfl⟩, fun hn => absurd hlen hn⟩
  · exact ⟨fun h => absurd h hlen, fun _ => rfl⟩

/-! ## The automatic IV (R178) -/

theorem needsIV_of_ne_ecb {m : Mode} (h : m ≠ .ecb) : needsIV m = true := by
  cases m <;> simp_all [needsIV]

/-- CBC is the only padded mode that needs an IV (R75). -/
theorem eq_cbc_of_padded {m : Mode} (h : m ≠ .ecb) (hp : padded m = true) : m = .cbc := by
  cases m <;> simp_all [padded]

/-- Settles O31: CHECK passes on to IVGEN, which loads the IV or raises E_HASH. -/
theorem autoIvGeneratesTheIv : Obligations.AutoIvGeneratesTheIv := by
  intro P m d s hk hm hv ha
  have ha' : padded m = true → d = .dec → s.ibuf.length % 16 = 0 := fun hp => ha (eq_cbc_of_padded hm hp)
  refine ⟨fun v e he => ⟨entBytes_length he, ?_⟩, fun e he => ?_⟩
  · rw [perform_ofCipher, perform_ofCipher]
    exact cipherOn_autoiv hk (needsIV_of_ne_ecb hm) hv ha' he _
  · rw [perform_ofCipher]
    exact cipherOn_autoiv_failed hk (needsIV_of_ne_ecb hm) hv ha' he _

end Sys2Proof.Machine
end

section
/-! The words of unsupported mode (O5). -/

namespace Sys2Proof

/-- MODE is one of R75's unless it is 5, 6 or 7. -/
theorem modeField_eq_none_iff {op : Byte} : modeField op = none ↔ 5 ≤ (op.extractLsb' 1 3).toNat := by
  unfold modeField
  generalize (op.extractLsb' 1 3).toNat = k
  match k with
  | 0 | 1 | 2 | 3 | 4 => simp
  | k + 5 => simp

/-- A word of format F0 raises no error but E_CMD (R78). -/
theorem decodeF0_ne_mode (w : Word) (i : Instr) : decodeF0 w i ≠ .error .unsupportedMode := by
  unfold decodeF0
  split <;> nofun

/-- A word of format FN raises no error but E_CMD (R78). -/
theorem decodeFN_ne_mode (w : Word) : decodeFN w ≠ .error .unsupportedMode := by
  unfold decodeFN
  split <;> nofun

/-- A word of format FC is of unsupported mode when N is zero and MODE is no mode (R78). -/
theorem decodeFC_eq_mode_iff {w : Word} :
    decodeFC w = .error .unsupportedMode ↔ countField w = 0 ∧ modeField (opField w) = none := by
  unfold decodeFC
  split_ifs with hn
  · exact ⟨nofun, fun ⟨hz, _⟩ => absurd hz hn⟩
  · rw [and_iff_right (not_not.mp hn)]
    cases modeField (opField w) <;> simp

/-- Only format FC has words of unsupported mode, since the opcodes of R73 in the other formats have another OP[7:4]. -/
theorem decode_eq_mode_iff {w : Word} : decode w = .error .unsupportedMode ↔
    rsvField w = 0 ∧ countField w = 0 ∧ (opField w).extractLsb' 4 4 = 1#4 ∧ modeField (opField w) = none := by
  unfold decode
  split_ifs with hr h1 h2 h3 h20 h30 hc
  · exact ⟨nofun, fun ⟨hz, _⟩ => absurd hz hr⟩
  · simp [decodeF0_ne_mode, h1]
  · simp [decodeF0_ne_mode, h2]
  · simp [decodeF0_ne_mode, h3]
  · simp [decodeF0_ne_mode, h20]
  · simp [decodeFN_ne_mode, h30]
  · simp [decodeFC_eq_mode_iff, not_not.mp hr, hc]
  · simp [hc]

/-! OP[7:4] and OP[3:1] in the number a word is (R71, R74). -/

theorem opClass_toNat (w : Word) : ((opField w).extractLsb' 4 4).toNat = w.toNat / 16 % 16 := by
  rw [BitVec.extractLsb'_toNat, opField_toNat, Nat.shiftRight_eq_div_pow]
  omega

theorem opMode_toNat (w : Word) : ((opField w).extractLsb' 1 3).toNat = w.toNat / 2 % 8 := by
  rw [BitVec.extractLsb'_toNat, opField_toNat, Nat.shiftRight_eq_div_pow]
  omega

/-- Settles O5: the decoder's conditions, each field read off the word as a number. -/
theorem unsupportedModeWords : Obligations.UnsupportedModeWords := by
  intro w
  rw [decode_eq_mode_iff, modeField_eq_none_iff, opMode_toNat, ← BitVec.toNat_inj, rsvField_toNat, ← BitVec.toNat_inj,
    countField_toNat, ← BitVec.toNat_inj, opClass_toNat]
  rfl

end Sys2Proof
end

section
/-! The first checks of the cipher commands (O29), and the input lengths of a padded decryption (O30). -/

namespace Sys2Proof.Machine

/-- Settles O29: KEYLEN is the first check of CHECK, IVMISS the second. -/
theorem keyAndIvAreCheckedFirst : Obligations.KeyAndIvAreCheckedFirst := by
  intro m d a s
  rw [exec_eq_perform, perform_ofCipher]
  refine ⟨fun hk => ?_, fun hk hm hv ha => ?_⟩
  · rw [cipherOn_keylen hk]
  · subst ha
    rw [cipherOn_ivmiss hk (needsIV_of_ne_ecb hm) hv]

/-- A padded decryption of a misaligned length (R217). -/
theorem exec_dec_align {m : Mode} {a : Bool} {s : State} (hk : s.klen ≠ .none)
    (hv : needsIV m = true → s.ivv = false → a = true) (hp : padded m = true) (hl : s.ibuf.length % 16 ≠ 0) :
    exec (Instr.ofCipher m .dec a) s =
      .next (endedErr (encode (Instr.ofCipher m .dec a)) .align { s with blkidx := 0 }) := by
  rw [exec_eq_perform, perform_ofCipher, cipherOn_align hk hv hp hl]

/-- A padded decryption of an empty input has no block, and UNPAD of no byte fails (R127, R217). -/
theorem exec_dec_empty {m : Mode} {a : Bool} {s : State} (hk : s.klen ≠ .none) (hv : needsIV m = true → s.ivv = true)
    (hp : padded m = true) (hi : s.ibuf = []) :
    exec (Instr.ofCipher m .dec a) s = .next (endedErr (encode (Instr.ofCipher m .dec a)) .pad
      { s with fb := if needsIV m then s.iv else s.fb, blkidx := 0 }) := by
  have hu : inputUnits m .dec s.ibuf = [] := List.length_eq_zero_iff.mp (by simp [inputUnits_length, blockCount, hp, hi])
  rw [exec_ofCipher hk hv (by simp [hi]), hu, endOf, if_pos ⟨hp, rfl⟩]
  rfl

/-- Settles O30: ECB needs no IV; CBC has one, or AUTOIV. -/
theorem misalignedPaddedDecryptRaisesAlign : Obligations.MisalignedPaddedDecryptRaisesAlign := by
  intro a s hk
  refine ⟨fun hl => ?_, fun hl hv => ?_, fun hi => ?_, fun hi hv => ?_, ?_, ?_⟩
  · exact exec_dec_align (m := .ecb) hk nofun rfl hl
  · exact exec_dec_align (m := .cbc) hk (fun _ hn => hv.resolve_left (by simp [hn])) rfl hl
  · exact exec_dec_empty (m := .ecb) hk nofun rfl hi
  · exact exec_dec_empty (m := .cbc) hk (fun _ => hv) rfl hi
  · exact (errWord_ofCipher .align .ecb .dec a false).trans (by decide)
  · exact (errWord_ofCipher .align .cbc .dec a false).trans (by decide)

end Sys2Proof.Machine
end

section
/-! Reset (O16). -/

namespace Sys2Proof.Machine

/-- Settles O16: no phase is looked at, the pending H.RESET is made at once, and it sets the state of R39 with `LE` of Config. -/
theorem resetMoveGivesTheResetState : Obligations.ResetMoveGivesTheResetState := by
  intro s rest hm
  rw [step_of_moves hm, makeMove, resetMove]
  rfl

end Sys2Proof.Machine
end

section
/-! The platform that `exec` runs on (O20, log 1). -/

namespace Sys2Proof.Machine

/-- Settles O20: each arm of `exec` is the arm of `perform` for the same command, taken on the platform of Config. -/
theorem execRunsOnTheConfiguredPlatform : Obligations.ExecRunsOnTheConfiguredPlatform := exec_eq_perform

end Sys2Proof.Machine
end
